-- ==== Sys2Proof/Word.lean ====
section
/-! DEFINITION. The words of CORE: the 32-bit word of the host's window, the byte of a buffer and the
4-bit operand field of a command (00_scope.md R9, 20_memory.md R52, 30_encoding.md R70). Big registers are
naturals (00_scope.md R7) and have no word type. -/

namespace Sys2Proof

/-- A 32-bit word: a command word, a control register, one host access (R52, R70). -/
abbrev Word := BitVec 32

/-- One byte of a buffer (10_state.md R34). -/
abbrev Byte := BitVec 8

/-- A 4-bit operand field that names a big register `b0` to `b15` (R70). -/
abbrev BReg := BitVec 4

/-- A 4-bit operand field that names a point register; 0 to 7 name `p0` to `p7`, 8 to 15 are reserved
(R70, R74; `Instr.wellFormed` says so). -/
abbrev PReg := BitVec 4

end Sys2Proof
end

