-- ==== Sys2Proof/Syntax.lean ====
section
/-! DEFINITION. The fourteen commands of CORE (30_encoding.md R72, R73): one constructor per row of the
opcode map, its operands in the order of the fields f1, f2, ... -/

namespace Sys2Proof

/-- A command with its operand fields (R73). -/
inductive Instr where
  /-- MONTMUL `bd, ba, bb, bn` (40_bigint.md R92). -/
  | montmul (bd ba bb bn : BReg)
  /-- MODEXP `bd, ba, be, bn` (40_bigint.md R100). -/
  | modexp (bd ba be bn : BReg)
  /-- MODINV `bd, ba, bn` (40_bigint.md R104). -/
  | modinv (bd ba bn : BReg)
  /-- GCD `bd, ba, bb` (40_bigint.md R108). -/
  | gcd (bd ba bb : BReg)
  /-- PADD `pd, pa, pb, bA, bn` (41_ec.md R122). -/
  | padd (pd pa pb : PReg) (bA bn : BReg)
  /-- PDBL `pd, pa, bA, bn` (41_ec.md R125). -/
  | pdbl (pd pa : PReg) (bA bn : BReg)
  /-- PMUL `pd, pa, bk, bA, bn` (41_ec.md R128). -/
  | pmul (pd pa : PReg) (bk bA bn : BReg)
  /-- PNEG `pd, pa, bn` (41_ec.md R131). -/
  | pneg (pd pa : PReg) (bn : BReg)
  /-- LDBLK `bd, bn` (42_codec.md R142). -/
  | ldblk (bd bn : BReg)
  /-- STINT `bs` (42_codec.md R144). -/
  | stint (bs : BReg)
  /-- WRUNIT `bs` (42_codec.md R147). -/
  | wrunit (bs : BReg)
  /-- RDUNIT `bd` (42_codec.md R150). -/
  | rdunit (bd : BReg)
  /-- WRPT `ps` (42_codec.md R151). -/
  | wrpt (ps : PReg)
  /-- RDPT `pd` (42_codec.md R152). -/
  | rdpt (pd : PReg)
deriving DecidableEq, Repr

/-- The mnemonic of a command (R72, R77). -/
def Instr.mnemonic : Instr → String
  | .montmul .. => "MONTMUL"
  | .modexp .. => "MODEXP"
  | .modinv .. => "MODINV"
  | .gcd .. => "GCD"
  | .padd .. => "PADD"
  | .pdbl .. => "PDBL"
  | .pmul .. => "PMUL"
  | .pneg .. => "PNEG"
  | .ldblk .. => "LDBLK"
  | .stint .. => "STINT"
  | .wrunit .. => "WRUNIT"
  | .rdunit .. => "RDUNIT"
  | .wrpt .. => "WRPT"
  | .rdpt .. => "RDPT"

end Sys2Proof
end

