-- ==== Sys2Proof/WellFormed.lean ====
section
/-! DEFINITION. Which terms of `Instr` are commands: every point field holds 0 to 7 (30_encoding.md R70,
R74). Every value of a big-register field names a register, so the other operands need no check. -/

namespace Sys2Proof

/-- A point field is at most 7 (R70, R74). -/
def isPoint (f : PReg) : Bool := f.toNat < 8

/-- The terms that stand for words: all point fields name one of `p0` to `p7`. -/
def Instr.wellFormed : Instr → Bool
  | .montmul _ _ _ _ => true
  | .modexp _ _ _ _ => true
  | .modinv _ _ _ => true
  | .gcd _ _ _ => true
  | .padd pd pa pb _ _ => isPoint pd && isPoint pa && isPoint pb
  | .pdbl pd pa _ _ => isPoint pd && isPoint pa
  | .pmul pd pa _ _ _ => isPoint pd && isPoint pa
  | .pneg pd pa _ => isPoint pd && isPoint pa
  | .ldblk _ _ => true
  | .stint _ => true
  | .wrunit _ => true
  | .rdunit _ => true
  | .wrpt ps => isPoint ps
  | .rdpt pd => isPoint pd

end Sys2Proof
end

