-- ==== Sys2Proof/Decode.lean ====
section
/-! DEFINITION. Reading a command word (30_encoding.md R70 to R76, R83), total on all 2^32 words, and
writing one. A word that is no command is rejected by the name of the test it fails; the tests have one
outcome, UnsupportedCommand (R83). -/

namespace Sys2Proof

/-- Which test of R83 a word fails. Every one has the same effect, the fault UnsupportedCommand (R74,
R203). -/
inductive Reject where
  /-- The `z` field is not 0. -/
  | nonzeroZ
  /-- The `op` field is none of the fourteen. -/
  | unknownOp
  /-- A field the row does not use is not 0. -/
  | unusedField
  /-- A point field holds 8 to 15. -/
  | pointField
deriving DecidableEq, Repr

/-- Field `op`, bits 31:24 (R70). -/
def opField (w : Word) : BitVec 8 := w.extractLsb' 24 8

/-- Field `f1`, bits 23:20 (R70). -/
def field1 (w : Word) : BitVec 4 := w.extractLsb' 20 4

/-- Field `f2`, bits 19:16 (R70). -/
def field2 (w : Word) : BitVec 4 := w.extractLsb' 16 4

/-- Field `f3`, bits 15:12 (R70). -/
def field3 (w : Word) : BitVec 4 := w.extractLsb' 12 4

/-- Field `f4`, bits 11:8 (R70). -/
def field4 (w : Word) : BitVec 4 := w.extractLsb' 8 4

/-- Field `f5`, bits 7:4 (R70). -/
def field5 (w : Word) : BitVec 4 := w.extractLsb' 4 4

/-- Field `z`, bits 3:0 (R70). -/
def zField (w : Word) : BitVec 4 := w.extractLsb' 0 4

/-- Steps (3) to (5) of R83: the unused fields must be 0, then the command's point fields at most 7. -/
def accept (unused : List (BitVec 4)) (i : Instr) : Except Reject Instr :=
  if unused.any (· != 0#4) then .error .unusedField
  else if i.wellFormed then .ok i
  else .error .pointField

/-- The decoding procedure of R83. -/
def decode (w : Word) : Except Reject Instr :=
  if zField w != 0#4 then .error .nonzeroZ
  else
    match (opField w).toNat with
    | 0x01 => accept [field5 w] (.montmul (field1 w) (field2 w) (field3 w) (field4 w))
    | 0x02 => accept [field5 w] (.modexp (field1 w) (field2 w) (field3 w) (field4 w))
    | 0x03 => accept [field4 w, field5 w] (.modinv (field1 w) (field2 w) (field3 w))
    | 0x04 => accept [field4 w, field5 w] (.gcd (field1 w) (field2 w) (field3 w))
    | 0x10 => accept [] (.padd (field1 w) (field2 w) (field3 w) (field4 w) (field5 w))
    | 0x11 => accept [field5 w] (.pdbl (field1 w) (field2 w) (field3 w) (field4 w))
    | 0x12 => accept [] (.pmul (field1 w) (field2 w) (field3 w) (field4 w) (field5 w))
    | 0x13 => accept [field4 w, field5 w] (.pneg (field1 w) (field2 w) (field3 w))
    | 0x20 => accept [field3 w, field4 w, field5 w] (.ldblk (field1 w) (field2 w))
    | 0x21 => accept [field2 w, field3 w, field4 w, field5 w] (.stint (field1 w))
    | 0x22 => accept [field2 w, field3 w, field4 w, field5 w] (.wrunit (field1 w))
    | 0x23 => accept [field2 w, field3 w, field4 w, field5 w] (.rdunit (field1 w))
    | 0x24 => accept [field2 w, field3 w, field4 w, field5 w] (.wrpt (field1 w))
    | 0x25 => accept [field2 w, field3 w, field4 w, field5 w] (.rdpt (field1 w))
    | _ => .error .unknownOp

/-- The host's numbering of a table row's bits: a command is one 32-bit word (R70, R71), a longer one does
not exist. -/
def decodeTableWord (nbits w : Nat) : Option Instr :=
  if nbits ≤ 32 then
    match decode (BitVec.ofNat 32 (w % 2 ^ nbits)) with
    | .ok i => some i
    | .error _ => none
  else none

/-- A word of format R5 with `z = 0` (R70). -/
def packR5 (op : BitVec 8) (f1 f2 f3 f4 f5 : BitVec 4) : Word :=
  op ++ f1 ++ f2 ++ f3 ++ f4 ++ f5 ++ 0#4

/-- The word of a well-formed command (R72, R73): its `op`, its operands in field order, 0 in every unused
field. -/
def encode : Instr → Word
  | .montmul bd ba bb bn => packR5 0x01 bd ba bb bn 0
  | .modexp bd ba be bn => packR5 0x02 bd ba be bn 0
  | .modinv bd ba bn => packR5 0x03 bd ba bn 0 0
  | .gcd bd ba bb => packR5 0x04 bd ba bb 0 0
  | .padd pd pa pb bA bn => packR5 0x10 pd pa pb bA bn
  | .pdbl pd pa bA bn => packR5 0x11 pd pa bA bn 0
  | .pmul pd pa bk bA bn => packR5 0x12 pd pa bk bA bn
  | .pneg pd pa bn => packR5 0x13 pd pa bn 0 0
  | .ldblk bd bn => packR5 0x20 bd bn 0 0 0
  | .stint bs => packR5 0x21 bs 0 0 0 0
  | .wrunit bs => packR5 0x22 bs 0 0 0 0
  | .rdunit bd => packR5 0x23 bd 0 0 0 0
  | .wrpt ps => packR5 0x24 ps 0 0 0 0
  | .rdpt pd => packR5 0x25 pd 0 0 0 0

/-- One row of the opcode map of R72. -/
structure Row where
  mnemonic : String
  /-- The column `match`. -/
  pattern : Word
  /-- The column `mask`. -/
  mask : Word
deriving DecidableEq, Repr

/-- The opcode map of R72, in its order. -/
def opcodeMap : List Row :=
  [⟨"MONTMUL", 0x01000000, 0xFF0000FF⟩,
   ⟨"MODEXP", 0x02000000, 0xFF0000FF⟩,
   ⟨"MODINV", 0x03000000, 0xFF000FFF⟩,
   ⟨"GCD", 0x04000000, 0xFF000FFF⟩,
   ⟨"PADD", 0x10000000, 0xFF88800F⟩,
   ⟨"PDBL", 0x11000000, 0xFF8800FF⟩,
   ⟨"PMUL", 0x12000000, 0xFF88000F⟩,
   ⟨"PNEG", 0x13000000, 0xFF880FFF⟩,
   ⟨"LDBLK", 0x20000000, 0xFF00FFFF⟩,
   ⟨"STINT", 0x21000000, 0xFF0FFFFF⟩,
   ⟨"WRUNIT", 0x22000000, 0xFF0FFFFF⟩,
   ⟨"RDUNIT", 0x23000000, 0xFF0FFFFF⟩,
   ⟨"WRPT", 0x24000000, 0xFF8FFFFF⟩,
   ⟨"RDPT", 0x25000000, 0xFF8FFFFF⟩]

end Sys2Proof
end

