-- ==== Sys2Proof/Config.lean ====
section
/-! DEFINITION. The parameters of a CORE instance (00_scope.md R5): OPEN in the spec, taken by the model as
arguments. They stand in `State.cfg`, so that every statement about every state is about every instance. -/

namespace Sys2Proof

/-- The three parameters of R5, the values of the registers WIDTH, IBSZ and OBSZ (10_state.md R33). -/
structure Config where
  /-- `W`, the width in bits of every big register, and the exponent of the Montgomery radix. -/
  width : Nat
  /-- `IBYTES`, the size of IBUF in bytes. -/
  ibytes : Nat
  /-- `OBYTES`, the size of OBUF in bytes. -/
  obytes : Nat
deriving DecidableEq, Repr

/-- The constraints of R5 on the parameters. -/
abbrev Config.Legal (c : Config) : Prop :=
  (c.width % 32 = 0 ∧ 32 ≤ c.width ∧ c.width ≤ 4096) ∧
  (c.ibytes % 4 = 0 ∧ 4 ≤ c.ibytes ∧ c.ibytes ≤ 16384) ∧
  (c.obytes % 4 = 0 ∧ 4 ≤ c.obytes ∧ c.obytes ≤ 16384)

/-- The instance that `State.reset` stands for: the defaults of the spec's test vectors (R5,
95_test_vectors.md). DESIGN CHOICE, log 1, unsafe: R5 gives the parameters no value. -/
def Config.vectors : Config := { width := 32, ibytes := 64, obytes := 64 }

end Sys2Proof
end

