-- ==== Sys2Proof/Machine/State.lean ====
section
/-! DEFINITION. The state of CORE as plain data (10_state.md), the events that act on it (20_memory.md R60),
its faults (60_exceptions.md R201), and its reset value (R36). -/

namespace Sys2Proof.Machine

/-- The bytes of a buffer (10_state.md R34), as the cells that differ from 0: an unlisted address reads 0,
the reset value of every buffer byte (R36). The canonical form is `Memory.Wf` of Machine/Memory.lean. -/
abbrev Memory := List Host.Cell

/-- A point value (00_scope.md R12): the point at infinity, or a pair of naturals. -/
inductive Point where
  | inf
  | finite (x y : Nat)
deriving DecidableEq, Repr

/-- The faults of a command (60_exceptions.md R201). A command that raises one TAKES it: the next state is
that of `State.faultEntry` (R206). -/
inductive CoreFault where
  /-- Code 1: a modular inverse does not exist (R202). -/
  | arithmetic
  /-- Code 2: a precondition of the command does not hold (R204). -/
  | invalidParameter
  /-- Code 3: the input stream is malformed, detected at offset `pos` of IBUF (R205, 42_codec.md R149). -/
  | malformedCiphertext (pos : Nat)
  /-- Code 4: the bytes to write do not fit OBUF (R205). -/
  | io
  /-- Code 5: the word is not a command (R203). -/
  | unsupportedCommand
  /-- Code 6: a parsed value does not fit a big register (R205). -/
  | capacity
deriving DecidableEq, Repr

/-- One event of the total order of R60, as the platform delivers it to CORE. `bytes` is the width of a host
access in bytes and `offset` its byte offset from the window's base (20_memory.md R51, R52). -/
inductive Event where
  /-- The host reads the window. -/
  | read (offset bytes : Nat)
  /-- The host writes `data` to the window. -/
  | write (offset bytes : Nat) (data : Word)
  /-- The platform's reset input (70_reset_and_hazards.md R230). -/
  | hardReset
  /-- No access in this place of the order: the sequencer moves, if it has an enabled step (R80). -/
  | sequencer
deriving DecidableEq, Repr

/-- Everything the spec gives the machine (10_state.md), and two lists of the model's own (`pending`,
`returned`). -/
structure State where
  /-- WIDTH, IBSZ, OBSZ: the constants of the instance (R33). -/
  cfg : Config
  /-- `b0` to `b15` (R20), naturals below `2^W`. -/
  regs : Vector Nat 16
  /-- PINF (R24, R39): bit `i` is the infinity flag of `p[i]`. -/
  pinf : BitVec 8
  /-- CMD (R27): the last accepted word. -/
  cmd : Word
  /-- STATUS.BUSY (R28). -/
  busy : Bool
  /-- STATUS.DONE (R28). -/
  done : Bool
  /-- STATUS.ERR (R28). -/
  err : Bool
  /-- STATUS.HOSTERR (R28). -/
  hostErr : Bool
  /-- CAUSE, bits 2:0 (R29). -/
  cause : BitVec 3
  /-- ERRPOS (R30). -/
  errPos : Word
  /-- CTRL.IE_DONE (R31). -/
  ieDone : Bool
  /-- CTRL.IE_ERR (R31). -/
  ieErr : Bool
  /-- IPTR (R32). -/
  iptr : Word
  /-- ILEN (R32). -/
  ilen : Word
  /-- OPTR (R32). -/
  optr : Word
  /-- CNT (R32). -/
  cnt : Word
  /-- IBUF (R34). -/
  ibuf : Memory
  /-- OBUF (R34). -/
  obuf : Memory
  /-- THE MODEL'S OWN: the events still to be delivered, the next one first; while it is empty the sequencer
  moves (log 3). -/
  pending : List Event
  /-- THE MODEL'S OWN: the words the bus has returned to the host, the newest first (log 4). -/
  returned : List Word
deriving DecidableEq, Repr

/-- The Lean-level faults of a step: NONE. Every fault of CORE is a state (60_exceptions.md R206) and every
access outside the rules is a refused access (20_memory.md R58), so no rule of the spec stops the machine.
Safe: there is nothing to raise. -/
inductive Fault where
deriving DecidableEq, Repr

/-- The refusals of a step. -/
inductive Refusal where
  /-- An instruction that has no meaning yet, by its mnemonic; raised by `exec` alone, and by no arm of it now.
  Safe: the model stops where CORE goes on. -/
  | notModelled (mnemonic : String)
deriving DecidableEq, Repr

/-- The state after a hard or soft reset of the instance `c` (10_state.md R36, 70_reset_and_hazards.md
R230). -/
def State.resetWith (c : Config) : State where
  cfg := c
  regs := Vector.replicate 16 0
  pinf := 0
  cmd := 0
  busy := false
  done := false
  err := false
  hostErr := false
  cause := 0
  errPos := 0
  ieDone := false
  ieErr := false
  iptr := 0
  ilen := 0
  optr := 0
  cnt := 0
  ibuf := []
  obuf := []
  pending := []
  returned := []

/-- The machine right after reset (R36), for the instance of log 1 (DESIGN CHOICE: R5 leaves the parameters
open; `State.resetWith` is the reset state of every instance). -/
def State.reset : State := State.resetWith Config.vectors

end Sys2Proof.Machine
end

