-- ==== Sys2Proof/Machine/Memory.lean ====
section
/-! DEFINITION. The byte memory of a buffer (10_state.md R34): its canonical form, one byte read and written,
and the byte strings of `MemRead` and `MemWrite` (00_scope.md R11). -/

namespace Sys2Proof.Machine

/-- What an unlisted address reads as: the reset value of a buffer byte (10_state.md R36). -/
def unlisted : Byte := 0

/-- The canonical form: addresses strictly rising, no entry equal to what an unlisted address reads as. -/
abbrev Memory.Wf (m : Memory) : Prop :=
  List.Pairwise (fun c d : Host.Cell => c.1 < d.1) m ∧ ∀ c ∈ m, c.2 ≠ unlisted

/-- Every listed address lies in a buffer of `n` bytes (10_state.md R34). -/
abbrev Memory.Below (m : Memory) (n : Nat) : Prop := ∀ c ∈ m, c.1 < n

/-- The byte at address `a`. -/
def Memory.read : Memory → Nat → Byte
  | [], _ => unlisted
  | (k, v) :: m, a => if k = a then v else Memory.read m a

/-- The memory with `v` at address `a`, in canonical form. -/
def Memory.write : Memory → Nat → Byte → Memory
  | [], a, v => if v = unlisted then [] else [(a, v)]
  | (k, w) :: m, a, v =>
    if a < k then (if v = unlisted then (k, w) :: m else (a, v) :: (k, w) :: m)
    else if a = k then (if v = unlisted then m else (a, v) :: m)
    else (k, w) :: Memory.write m a v

/-- `MemRead(m, a, n)` (R11): the bytes at `a`, ..., `a + n - 1`. -/
def Memory.readBytes (m : Memory) : Nat → Nat → List Byte
  | _, 0 => []
  | a, n + 1 => m.read a :: Memory.readBytes m (a + 1) n

/-- `MemWrite(m, a, len(s), s)` (R11). -/
def Memory.writeBytes : Memory → Nat → List Byte → Memory
  | m, _, [] => m
  | m, a, b :: s => Memory.writeBytes (m.write a b) (a + 1) s

end Sys2Proof.Machine
end

