-- ==== Sys2Proof/Machine/Numbers.lean ====
section
/-! DEFINITION. The numbers and byte strings of the spec's notation (00_scope.md R7 to R10), and the stream
formats of units (42_codec.md R143, R146). -/

namespace Sys2Proof.Machine

/-- `bitlength(v)` (R8): 0 for 0, else the number of binary digits. -/
def bitLength (v : Nat) : Nat := if v = 0 then 0 else v.log2 + 1

/-- `x mod m` for an integer `x` and a natural `m >= 1` (R7): the remainder in `0 .. m-1`. -/
def intMod (x : Int) (m : Nat) : Nat := (x % (m : Int)).toNat

/-- `BE(s)` (R10): the unsigned big-endian value of a byte string, 0 for the empty one. -/
def beValue (s : List Byte) : Nat := s.foldl (fun acc b => acc * 256 + b.toNat) 0

/-- The `k` low-order bytes of `v`, the most significant first (R10). -/
def beBytes : Nat → Nat → List Byte
  | 0, _ => []
  | k + 1, v => BitVec.ofNat 8 (v / 256 ^ k) :: beBytes k v

/-- The number of bytes of `MAG(v)` (R10). -/
def magLength (v : Nat) : Nat := max 1 ((bitLength v + 7) / 8)

/-- `MAG(v)` (R10): the shortest big-endian string of `v` with at least one byte. -/
def mag (v : Nat) : List Byte := beBytes (magLength v) v

/-- `BE32(k)` (R10). -/
def be32 (k : Nat) : List Byte := beBytes 4 k

/-- `sext_32` (R9): a 32-bit word read as two's complement. -/
def sext32 (n : Nat) : Int := if n < 2 ^ 31 then (n : Int) else (n : Int) - 2 ^ 32

/-- `UNIT(v)` (42_codec.md R146): the length prefix, then the minimal magnitude. -/
def unitBytes (v : Nat) : List Byte := be32 (mag v).length ++ mag v

/-- `L(m)` (42_codec.md R143): the block length in bytes of the modulus `m`. -/
def blockLength (m : Nat) : Nat := (bitLength m - 1) / 8

end Sys2Proof.Machine
end

