-- ==== Sys2Proof/Machine/Flags.lean ====
section
/-! DEFINITION. The flags of CORE (10_state.md R38): the infinity flags of PINF, the words STATUS and CTRL
as the host reads them, and the interrupt line. There are no condition codes (R24). -/

namespace Sys2Proof.Machine

/-- `PINF[i]` (R24). -/
def State.pinfBit (s : State) (i : PReg) : Bool := s.pinf.getLsbD i.toNat

/-- `PINF[i] <- v`, every other bit as it was (R24, 41_ec.md R133). -/
def State.setPinfBit (s : State) (i : PReg) (v : Bool) : State :=
  { s with pinf := if v then s.pinf ||| 1#8 <<< i.toNat else s.pinf &&& ~~~(1#8 <<< i.toNat) }

/-- STATUS as a word (R28): BUSY, DONE, ERR, HOSTERR in bits 0 to 3, 0 above. -/
def State.statusWord (s : State) : Word :=
  0#28 ++ BitVec.ofBool s.hostErr ++ BitVec.ofBool s.err ++ BitVec.ofBool s.done ++ BitVec.ofBool s.busy

/-- CTRL as a word (R31): SRST reads 0, IE_DONE and IE_ERR in bits 1 and 2, 0 above. -/
def State.ctrlWord (s : State) : Word :=
  0#29 ++ BitVec.ofBool s.ieErr ++ BitVec.ofBool s.ieDone ++ 0#1

/-- The interrupt line (60_exceptions.md R209), a function of the state. -/
def State.irq (s : State) : Bool := (s.done && s.ieDone) || (s.err && s.ieErr)

/-- CORE is idle for the host's writes: neither busy nor faulted (20_memory.md R51, R56). -/
def State.idle (s : State) : Bool := !s.busy && !s.err

end Sys2Proof.Machine
end

