-- ==== Sys2Proof/Machine/Operands.lean ====
section
/-! DEFINITION. The operand forms of a command (30_encoding.md R73, R76): a big register and a point
register, read and written (00_scope.md R11, 10_state.md R20 to R25). There are no immediates and no
addresses. -/

namespace Sys2Proof.Machine

/-- `b[i]` (R11). -/
def State.big (s : State) (i : BReg) : Nat := s.regs[i.toNat]'i.isLt

/-- `b[i] <- v` (R11); PINF is untouched (R23). -/
def State.setBig (s : State) (i : BReg) (v : Nat) : State :=
  { s with regs := s.regs.set i.toNat v i.isLt }

/-- The big register that holds the x coordinate of `p[i]`: `b[2i]` (R23). -/
def xReg (i : PReg) : BReg := 2#4 * i

/-- The big register that holds the y coordinate of `p[i]`: `b[2i+1]` (R23). -/
def yReg (i : PReg) : BReg := 2#4 * i + 1#4

/-- `p[i]` (R11, R23): the coordinates are not looked at when the flag is set (R25). -/
def State.point (s : State) (i : PReg) : Point :=
  if s.pinfBit i then .inf else .finite (s.big (xReg i)) (s.big (yReg i))

/-- `p[i] <- P` (R11): the point at infinity zeroes both coordinates (R25). -/
def State.setPoint (s : State) (i : PReg) : Point → State
  | .inf => ((s.setBig (xReg i) 0).setBig (yReg i) 0).setPinfBit i true
  | .finite x y => ((s.setBig (xReg i) x).setBig (yReg i) y).setPinfBit i false

end Sys2Proof.Machine
end

