-- ==== Sys2Proof/Machine/Ops.lean ====
section
/-! DEFINITION. The operations the commands share: fault entry (60_exceptions.md R206), reset, the only way
out of the faulted state (R207, 70_reset_and_hazards.md R230), the completion of a command
(30_encoding.md R80), and the moves of the codec between the buffers and the registers (42_codec.md R140,
R141). -/

namespace Sys2Proof.Machine

/-- The code of a fault in CAUSE (60_exceptions.md R201). -/
def CoreFault.code : CoreFault → BitVec 3
  | .arithmetic => 1
  | .invalidParameter => 2
  | .malformedCiphertext _ => 3
  | .io => 4
  | .unsupportedCommand => 5
  | .capacity => 6

/-- What ERRPOS holds after a fault (60_exceptions.md R201, R206): the byte offset of a malformed stream, 0
after any other fault. -/
def CoreFault.errPos : CoreFault → Word
  | .malformedCiphertext pos => BitVec.ofNat 32 pos
  | .arithmetic => 0
  | .invalidParameter => 0
  | .io => 0
  | .unsupportedCommand => 0
  | .capacity => 0

/-- Fault entry (60_exceptions.md R206): none of the command's writes, and these five assignments. -/
def State.faultEntry (s : State) (f : CoreFault) : State :=
  { s with busy := false, done := false, err := true, cause := f.code, errPos := f.errPos }

/-- Reset, hard or soft (70_reset_and_hazards.md R230): every piece of the machine's state at its value of
10_state.md R36. It is the only exit from the faulted state (60_exceptions.md R207). The model's own lists
belong to the platform and stay (log 10). -/
def State.performReset (s : State) : State :=
  { State.resetWith s.cfg with pending := s.pending, returned := s.returned }

/-- The end of a command without a fault (30_encoding.md R80), after its writes. -/
def State.succeed (s : State) : State := { s with busy := false, done := true }

/-- The completion step of the command `i` whose rule ends in `r` (30_encoding.md R80): the writes of a rule
that succeeds, or fault entry on the state the command found. A term that no word decodes to is not a
command and raises UnsupportedCommand first (R74, 60_exceptions.md R203, R214). -/
def State.complete (s : State) (i : Instr) (r : Except CoreFault State) : Host.Outcome State Fault Refusal :=
  if i.wellFormed then
    match r with
    | .ok t => .next t.succeed
    | .error f => .next (s.faultEntry f)
  else .next (s.faultEntry .unsupportedCommand)

/-- The completion step of a word that is not a command (30_encoding.md R74, 60_exceptions.md R203). -/
def State.unsupported (s : State) : State := s.faultEntry .unsupportedCommand

/-- Acceptance of the word `w` (30_encoding.md R79). -/
def State.acceptCommand (s : State) (w : Word) : State := { s with cmd := w, busy := true, done := false }

/-- The word that CMD holds, as the sequencer reads it (30_encoding.md R83). -/
def State.fetch (s : State) : Except Reject Instr := decode s.cmd

/-- The state in which the word `w` has just been accepted and the sequencer moves next: the host's write of
CMD (R79) without the bus access. A word is accepted only outside the faulted state, so its three fields are
cleared with it (log 2, log 13). -/
def State.loadCommand (s : State) (w : Word) : State :=
  { s.acceptCommand w with
    err := false, cause := 0, errPos := 0, pending := .sequencer :: s.pending }

/-- Pointer sanity (42_codec.md R141), tested by every codec command whichever buffer it uses. -/
def State.pointersOk (s : State) : Bool :=
  s.iptr.toNat ≤ s.ilen.toNat && s.ilen.toNat ≤ s.cfg.ibytes && s.optr.toNat ≤ s.cfg.obytes

/-- The stream bytes still in IBUF (42_codec.md R141). -/
def State.avail (s : State) : Nat := s.ilen.toNat - s.iptr.toNat

/-- The space left in OBUF (42_codec.md R141). -/
def State.room (s : State) : Nat := s.cfg.obytes - s.optr.toNat

/-- `n` stream bytes of IBUF from offset `pos` on (00_scope.md R11). -/
def State.streamBytes (s : State) (pos n : Nat) : List Byte := s.ibuf.readBytes pos n

/-- A load's effect on the pointers (42_codec.md R140): `IPTR <- IPTR + c; CNT <- c`. -/
def State.consume (s : State) (c : Nat) : State :=
  { s with iptr := s.iptr + BitVec.ofNat 32 c, cnt := BitVec.ofNat 32 c }

/-- A store's writes (42_codec.md R140): the bytes to OBUF at OPTR, `OPTR <- OPTR + k; CNT <- k`. -/
def State.emit (s : State) (bytes : List Byte) : State :=
  { s with
    obuf := s.obuf.writeBytes s.optr.toNat bytes
    optr := s.optr + BitVec.ofNat 32 bytes.length
    cnt := BitVec.ofNat 32 bytes.length }

/-- The rule the three stores share (42_codec.md R144, R147, R151): pointer check, room, write. -/
def State.store (s : State) (bytes : List Byte) : Except CoreFault State :=
  if !s.pointersOk then .error .invalidParameter
  else if bytes.length > s.room then .error .io
  else .ok (s.emit bytes)

/-- `PARSE(pos)` (42_codec.md R148): the value of the unit at offset `pos` and the offset after it, the
tests in the order the rule gives. -/
def State.parseUnit (s : State) (pos : Nat) : Except CoreFault (Nat × Nat) :=
  if s.ilen.toNat - pos < 4 then .error (.malformedCiphertext pos)
  else
    let len := sext32 (beValue (s.streamBytes pos 4))
    if len < 0 then .error (.malformedCiphertext pos)
    else if len > ((s.ilen.toNat - pos - 4 : Nat) : Int) then .error (.malformedCiphertext (pos + 4))
    else
      let v := beValue (s.streamBytes (pos + 4) len.toNat)
      if v ≥ 2 ^ s.cfg.width then .error .capacity
      else .ok (v, pos + 4 + len.toNat)

/-- `PT(P)` (42_codec.md R153): the flag byte, then two units when the point is finite. -/
def pointBytes : Point → List Byte
  | .inf => [0x01]
  | .finite x y => 0x00 :: (unitBytes x ++ unitBytes y)

end Sys2Proof.Machine
end

