-- ==== Sys2Proof/Machine/Bus.lean ====
section
/-! DEFINITION. The host's window (20_memory.md): the address map (R51), the byte lanes (R53), the limbs
(R55), when an access is performed (R56), and what a refused one does (R58). -/

namespace Sys2Proof.Machine

/-- The control registers of R51, in the order of their offsets. -/
inductive CtlReg where
  | cmd | status | cause | errPos | ctrl | pinf | iptr | ilen | optr | cnt | width | ibsz | obsz
deriving DecidableEq, Repr

/-- The mapped words of the window (R51). -/
inductive Loc where
  /-- A control register, offsets 0x0000 to 0x0030. -/
  | ctl (r : CtlReg)
  /-- Limb `j` of `b[i]` (R55). -/
  | limb (i : BReg) (j : Nat)
  /-- The word of IBUF that begins at buffer offset `k` (R53). -/
  | ibuf (k : Nat)
  /-- The word of OBUF that begins at buffer offset `k` (R53). -/
  | obuf (k : Nat)
deriving DecidableEq, Repr

/-- The control register of word number `k` of the window (R51). -/
def ctlAt : Nat → Option CtlReg
  | 0 => some .cmd
  | 1 => some .status
  | 2 => some .cause
  | 3 => some .errPos
  | 4 => some .ctrl
  | 5 => some .pinf
  | 6 => some .iptr
  | 7 => some .ilen
  | 8 => some .optr
  | 9 => some .cnt
  | 10 => some .width
  | 11 => some .ibsz
  | 12 => some .obsz
  | _ => none

/-- The address map of R51 for an aligned offset; `none` is an unmapped offset (R59). -/
def locate (c : Config) (offset : Nat) : Option Loc :=
  if offset < 0x1000 then (ctlAt (offset / 4)).map .ctl
  else if offset < 0x3000 then
    let i := (offset - 0x1000) / 0x200
    let j := (offset - 0x1000) % 0x200 / 4
    if j < c.width / 32 then some (.limb (BitVec.ofNat 4 i) j) else none
  else if offset < 0x4000 then none
  else if offset < 0x8000 then
    if offset - 0x4000 < c.ibytes then some (.ibuf (offset - 0x4000)) else none
  else if offset < 0xC000 then
    if offset - 0x8000 < c.obytes then some (.obuf (offset - 0x8000)) else none
  else none

/-- The mapped word an access names: it must be 4 bytes wide and aligned (R52). -/
def target (c : Config) (offset bytes : Nat) : Option Loc :=
  if bytes = 4 ∧ offset % 4 = 0 then locate c offset else none

/-- Limb `j` of a big register's value (R55). -/
def limbOf (v j : Nat) : Word := BitVec.ofNat 32 (v / 2 ^ (32 * j))

/-- The value with limb `j` replaced by `d`, the other limbs as they were (R55). -/
def withLimb (v j : Nat) (d : Word) : Nat :=
  v / 2 ^ (32 * (j + 1)) * 2 ^ (32 * (j + 1)) + d.toNat * 2 ^ (32 * j) + v % 2 ^ (32 * j)

/-- The word of a buffer at offset `k`: the byte at the lowest offset in the lowest lane (R53). -/
def lanesRead (m : Memory) (k : Nat) : Word :=
  m.read (k + 3) ++ m.read (k + 2) ++ m.read (k + 1) ++ m.read k

/-- The four bytes of a word, the lowest lane first (R53). -/
def lanes (d : Word) : List Byte :=
  [d.extractLsb' 0 8, d.extractLsb' 8 8, d.extractLsb' 16 8, d.extractLsb' 24 8]

/-- The value of a control register (10_state.md R27 to R33, R39). -/
def State.ctlRead (s : State) : CtlReg → Word
  | .cmd => s.cmd
  | .status => s.statusWord
  | .cause => s.cause.setWidth 32
  | .errPos => s.errPos
  | .ctrl => s.ctrlWord
  | .pinf => s.pinf.setWidth 32
  | .iptr => s.iptr
  | .ilen => s.ilen
  | .optr => s.optr
  | .cnt => s.cnt
  | .width => BitVec.ofNat 32 s.cfg.width
  | .ibsz => BitVec.ofNat 32 s.cfg.ibytes
  | .obsz => BitVec.ofNat 32 s.cfg.obytes

/-- The value of a mapped word. -/
def State.locRead (s : State) : Loc → Word
  | .ctl r => s.ctlRead r
  | .limb i j => limbOf (s.big i) j
  | .ibuf k => lanesRead s.ibuf k
  | .obuf k => lanesRead s.obuf k

/-- When a read of a mapped word is performed (R56): a control register always, the rest while not busy. -/
def State.mayRead (s : State) : Loc → Bool
  | .ctl _ => true
  | .limb _ _ => !s.busy
  | .ibuf _ => !s.busy
  | .obuf _ => !s.busy

/-- A write of CTRL (10_state.md R31): a reset when bit 0 is 1, the enables otherwise. -/
def State.writeCtrl (s : State) (d : Word) : State :=
  if d.getLsbD 0 then s.performReset
  else { s with ieDone := d.getLsbD 1, ieErr := d.getLsbD 2 }

/-- A write of a control register that is performed when it is allowed; `none` is a register that is never
written (R56). CTRL is written at any time, the others while idle. -/
def State.ctlWrite (s : State) (d : Word) : CtlReg → Option State
  | .cmd => if s.idle then some (s.acceptCommand d) else none
  | .status => none
  | .cause => none
  | .errPos => none
  | .ctrl => some (s.writeCtrl d)
  | .pinf => if s.idle then some { s with pinf := d.setWidth 8 } else none
  | .iptr => if s.idle then some { s with iptr := d } else none
  | .ilen => if s.idle then some { s with ilen := d } else none
  | .optr => if s.idle then some { s with optr := d } else none
  | .cnt => none
  | .width => none
  | .ibsz => none
  | .obsz => none

/-- A write of a mapped word, where it is performed (R56). -/
def State.locWrite (s : State) (d : Word) : Loc → Option State
  | .ctl r => s.ctlWrite d r
  | .limb i j => if s.idle then some (s.setBig i (withLimb (s.big i) j d)) else none
  | .ibuf k => if s.idle then some { s with ibuf := s.ibuf.writeBytes k (lanes d) } else none
  | .obuf k => if s.idle then some { s with obuf := s.obuf.writeBytes k (lanes d) } else none

/-- The one effect of a refused access on the state (R58). -/
def State.refuse (s : State) : State := { s with hostErr := true }

/-- The bus returns a word to the host. -/
def State.answer (s : State) (w : Word) : State := { s with returned := w :: s.returned }

/-- A host read: the word is returned and no state changes (R57), or it is refused and returns 0 (R58). -/
def State.hostRead (s : State) (offset bytes : Nat) : State :=
  match target s.cfg offset bytes with
  | some l => if s.mayRead l then s.answer (s.locRead l) else s.refuse.answer 0
  | none => s.refuse.answer 0

/-- A host write: performed, or refused (R58). -/
def State.hostWrite (s : State) (offset bytes : Nat) (d : Word) : State :=
  match target s.cfg offset bytes with
  | some l => (s.locWrite d l).getD s.refuse
  | none => s.refuse

end Sys2Proof.Machine
end

