-- ==== Sys2Proof/Machine/BigInt.lean ====
section
/-! DEFINITION. The big-integer unit (40_bigint.md): the datapaths of R94, R101, R102, R105, R109 and the
commands MONTMUL, MODEXP, MODINV, GCD. That a datapath computes its value rule (R92, R100, R104, R108) is a
statement about the model, not a part of it. -/

namespace Sys2Proof.Machine

/-- One iteration of the multiplier for bit `i` of `x` (R94). -/
def montStep (x y n i acc : Nat) : Nat :=
  let added := if x.testBit i then acc + y else acc
  let even := if added % 2 = 1 then added + n else added
  even / 2

/-- The accumulator after bits `0` to `count - 1` of `x` (R94). -/
def montAcc (x y n : Nat) : Nat → Nat
  | 0 => 0
  | i + 1 => montStep x y n i (montAcc x y n i)

/-- The multiplier of R94: `W` iterations and one conditional subtraction. -/
def montMul (W x y n : Nat) : Nat :=
  let acc := montAcc x y n W
  if acc ≥ n then acc - n else acc

/-- The left-to-right square-and-multiply loop of R101 and R102 over the low `count` bits of `e`, the most
significant first, with the product `mul` and the base `x`. -/
def expLoop (mul : Nat → Nat → Nat) (x e : Nat) : Nat → Nat → Nat
  | 0, acc => acc
  | i + 1, acc =>
    let squared := mul acc acc
    expLoop mul x e i (if e.testBit i then mul squared x else squared)

/-- The engine for odd `n` (R101), in Montgomery form. -/
def modExpOdd (W a e n : Nat) : Nat :=
  let one := 2 ^ W % n
  let r2 := 2 ^ (2 * W) % n
  let xm := montMul W (a % n) r2 n
  montMul W (expLoop (fun u v => montMul W u v n) xm e (bitLength e) one) (1 % n) n

/-- The engine for even `n` (R102), with products reduced directly. -/
def modExpEven (a e n : Nat) : Nat :=
  expLoop (fun u v => u * v % n) (a % n) e (bitLength e) (1 % n)

/-- The modular exponentiation engine: the path by the parity of `n` (R101, R102). -/
def modExp (W a e n : Nat) : Nat := if n % 2 = 1 then modExpOdd W a e n else modExpEven a e n

/-- The loop of the extended-Euclidean unit (R105); `r1` strictly decreases, so `fuel = r1` iterations are
enough. -/
def xgcdLoop : Nat → Nat → Nat → Int → Int → Nat × Int
  | 0, r0, _, t0, _ => (r0, t0)
  | fuel + 1, r0, r1, t0, t1 =>
    if r1 = 0 then (r0, t0)
    else xgcdLoop fuel r1 (r0 - r0 / r1 * r1) t1 (t0 - (r0 / r1 : Nat) * t1)

/-- `XGCD(u, m)` (R105): the gcd, and the inverse when the gcd is 1. -/
def xgcd (u m : Nat) : Nat × Nat :=
  let (g, t) := xgcdLoop u m u 0 1
  (g, intMod t m)

/-- The inverse of `a` modulo `m >= 1` with the fault of R104 (also `INV`, 41_ec.md R132). -/
def inverse (a m : Nat) : Except CoreFault Nat :=
  let (g, t) := xgcd (a % m) m
  if g ≠ 1 then .error .arithmetic else .ok t

/-- The loop of Euclid's algorithm (R109); `v` strictly decreases. -/
def gcdLoop : Nat → Nat → Nat → Nat
  | 0, u, _ => u
  | fuel + 1, u, v => if v = 0 then u else gcdLoop fuel v (u % v)

/-- The gcd unit (R109). -/
def euclid (u v : Nat) : Nat := gcdLoop v u v

/-- The rule of MONTMUL (R92). -/
def montmulRule (bd ba bb bn : BReg) (s : State) : Except CoreFault State :=
  let x := s.big ba
  let y := s.big bb
  let n := s.big bn
  if n % 2 = 0 then .error .invalidParameter
  else if x ≥ n ∨ y ≥ n then .error .invalidParameter
  else .ok (s.setBig bd (montMul s.cfg.width x y n))

/-- MONTMUL `bd, ba, bb, bn` (R92). -/
def execMontmul (bd ba bb bn : BReg) (s : State) : Host.Outcome State Fault Refusal :=
  s.complete (.montmul bd ba bb bn) (montmulRule bd ba bb bn s)

/-- The rule of MODEXP (R100). -/
def modexpRule (bd ba be bn : BReg) (s : State) : Except CoreFault State :=
  let n := s.big bn
  if n = 0 then .error .invalidParameter
  else .ok (s.setBig bd (modExp s.cfg.width (s.big ba) (s.big be) n))

/-- MODEXP `bd, ba, be, bn` (R100). -/
def execModexp (bd ba be bn : BReg) (s : State) : Host.Outcome State Fault Refusal :=
  s.complete (.modexp bd ba be bn) (modexpRule bd ba be bn s)

/-- The rule of MODINV (R104). -/
def modinvRule (bd ba bn : BReg) (s : State) : Except CoreFault State :=
  let m := s.big bn
  if m = 0 then .error .invalidParameter
  else
    match inverse (s.big ba) m with
    | .error f => .error f
    | .ok t => .ok (s.setBig bd t)

/-- MODINV `bd, ba, bn` (R104). -/
def execModinv (bd ba bn : BReg) (s : State) : Host.Outcome State Fault Refusal :=
  s.complete (.modinv bd ba bn) (modinvRule bd ba bn s)

/-- The rule of GCD (R108): it never faults. -/
def gcdRule (bd ba bb : BReg) (s : State) : Except CoreFault State :=
  .ok (s.setBig bd (euclid (s.big ba) (s.big bb)))

/-- GCD `bd, ba, bb` (R108). -/
def execGcd (bd ba bb : BReg) (s : State) : Host.Outcome State Fault Refusal :=
  s.complete (.gcd bd ba bb) (gcdRule bd ba bb s)

end Sys2Proof.Machine
end

