-- ==== Sys2Proof/Machine/Codec.lean ====
section
/-! DEFINITION. The block-integer codec (42_codec.md): the loads LDBLK, RDUNIT, RDPT and the stores STINT,
WRUNIT, WRPT. -/

namespace Sys2Proof.Machine

/-- The rule of LDBLK (R142). -/
def ldblkRule (bd bn : BReg) (s : State) : Except CoreFault State :=
  if !s.pointersOk then .error .invalidParameter
  else
    let m := s.big bn
    if m = 0 then .error .invalidParameter
    else if blockLength m = 0 then .error .invalidParameter
    else
      let c := min (blockLength m) s.avail
      let v := beValue (s.streamBytes s.iptr.toNat c)
      .ok ((s.setBig bd v).consume c)

/-- LDBLK `bd, bn` (R142). -/
def execLdblk (bd bn : BReg) (s : State) : Host.Outcome State Fault Refusal :=
  s.complete (.ldblk bd bn) (ldblkRule bd bn s)

/-- STINT `bs` (R144): the minimal magnitude, `fromInteger` of the document (R145). -/
def execStint (bs : BReg) (s : State) : Host.Outcome State Fault Refusal :=
  s.complete (.stint bs) (s.store (mag (s.big bs)))

/-- WRUNIT `bs` (R147). -/
def execWrunit (bs : BReg) (s : State) : Host.Outcome State Fault Refusal :=
  s.complete (.wrunit bs) (s.store (unitBytes (s.big bs)))

/-- The rule of RDUNIT (R150). -/
def rdunitRule (bd : BReg) (s : State) : Except CoreFault State :=
  if !s.pointersOk then .error .invalidParameter
  else
    match s.parseUnit s.iptr.toNat with
    | .error f => .error f
    | .ok (v, after) => .ok ((s.setBig bd v).consume (after - s.iptr.toNat))

/-- RDUNIT `bd` (R150). -/
def execRdunit (bd : BReg) (s : State) : Host.Outcome State Fault Refusal :=
  s.complete (.rdunit bd) (rdunitRule bd s)

/-- WRPT `ps` (R151). -/
def execWrpt (ps : PReg) (s : State) : Host.Outcome State Fault Refusal :=
  s.complete (.wrpt ps) (s.store (pointBytes (s.point ps)))

/-- The rule of RDPT (R152): the unit `x` is parsed completely before `y` is looked at. -/
def rdptRule (pd : PReg) (s : State) : Except CoreFault State :=
  if !s.pointersOk then .error .invalidParameter
  else if s.avail < 1 then .error (.malformedCiphertext s.iptr.toNat)
  else
    let flag := s.ibuf.read s.iptr.toNat
    if flag = 0x01 then .ok ((s.setPoint pd .inf).consume 1)
    else if flag = 0x00 then
      match s.parseUnit (s.iptr.toNat + 1) with
      | .error f => .error f
      | .ok (x, n1) =>
        match s.parseUnit n1 with
        | .error f => .error f
        | .ok (y, n2) => .ok ((s.setPoint pd (.finite x y)).consume (n2 - s.iptr.toNat))
    else .error (.malformedCiphertext s.iptr.toNat)

/-- RDPT `pd` (R152). -/
def execRdpt (pd : PReg) (s : State) : Host.Outcome State Fault Refusal :=
  s.complete (.rdpt pd) (rdptRule pd s)

end Sys2Proof.Machine
end

