-- ==== Sys2Proof/Machine/Curve.lean ====
section
/-! DEFINITION. The elliptic-curve units (41_ec.md): the functions `ADD`, `DBL` and the double-and-add loop,
the common checks, and the commands PADD, PDBL, PMUL, PNEG. -/

namespace Sys2Proof.Machine

/-- `INV(v, p)` for an integer `v` (R132). -/
def invMod (v : Int) (p : Nat) : Except CoreFault Nat := inverse (intMod v p) p

/-- `DBL(P, a, p)` (R125): the point at infinity stays, a finite point goes through the formula, also when
its `y` is 0 (R126). -/
def pointDouble (P : Point) (a p : Nat) : Except CoreFault Point :=
  match P with
  | .inf => .ok .inf
  | .finite x y =>
    match invMod (2 * (y : Int)) p with
    | .error f => .error f
    | .ok inv =>
      let lam := intMod ((3 * (x : Int) * x + a) * inv) p
      let x3 := intMod ((lam : Int) * lam - 2 * x) p
      let y3 := intMod ((lam : Int) * (x - x3) - y) p
      .ok (.finite x3 y3)

/-- `ADD(P, Q, a, p)` (R122), from its first `if` on. -/
def pointAdd (P Q : Point) (a p : Nat) : Except CoreFault Point :=
  match P, Q with
  | .inf, _ => .ok Q
  | .finite _ _, .inf => .ok P
  | .finite px py, .finite qx qy =>
    if px = qx ∧ py = qy then pointDouble P a p
    else if px = qx then .ok .inf
    else
      match invMod ((qx : Int) - px) p with
      | .error f => .error f
      | .ok inv =>
        let lam := intMod (((qy : Int) - py) * inv) p
        let x3 := intMod ((lam : Int) * lam - px - qx) p
        let y3 := intMod ((lam : Int) * (px - x3) - py) p
        .ok (.finite x3 y3)

/-- The loop of the scalar multiplier (R128) for `count` more bits of `k`, the next one being bit `i`. The
addend is doubled after every bit, the top one too (R129). -/
def mulLoop (k a p : Nat) : Nat → Nat → Point → Point → Except CoreFault Point
  | 0, _, sum, _ => .ok sum
  | count + 1, i, sum, addend =>
    match (if k.testBit i then pointAdd sum addend a p else .ok sum) with
    | .error f => .error f
    | .ok sum' =>
      match pointDouble addend a p with
      | .error f => .error f
      | .ok addend' => mulLoop k a p count (i + 1) sum' addend'

/-- `scalarMultiply(P, k)` (R128): the running sum starts at infinity, the addend at `P`. -/
def pointMul (P : Point) (k a p : Nat) : Except CoreFault Point :=
  mulLoop k a p (bitLength k) 0 .inf P

/-- Point negation (R131). -/
def pointNeg (P : Point) (p : Nat) : Point :=
  match P with
  | .inf => .inf
  | .finite x y => .finite x ((p - y) % p)

/-- The range check of one source point (R121): an infinite point is not looked at. -/
def inRange (p : Nat) : Point → Bool
  | .inf => true
  | .finite x y => x < p && y < p

/-- The common checks of R121 on the prime and the source points, in that order. -/
def pointChecks (p : Nat) (sources : List Point) : Except CoreFault Unit :=
  if p = 0 then .error .invalidParameter
  else if sources.all (inRange p) then .ok ()
  else .error .invalidParameter

/-- The rule the four point commands share (R121, R133): the checks, then the computation, then the write of
the destination point. -/
def pointRule (s : State) (pd : PReg) (p : Nat) (sources : List Point) (res : Except CoreFault Point) :
    Except CoreFault State :=
  match pointChecks p sources with
  | .error f => .error f
  | .ok () =>
    match res with
    | .error f => .error f
    | .ok P => .ok (s.setPoint pd P)

/-- PADD `pd, pa, pb, bA, bn` (R122). -/
def execPadd (pd pa pb : PReg) (bA bn : BReg) (s : State) : Host.Outcome State Fault Refusal :=
  s.complete (.padd pd pa pb bA bn)
    (pointRule s pd (s.big bn) [s.point pa, s.point pb]
      (pointAdd (s.point pa) (s.point pb) (s.big bA) (s.big bn)))

/-- PDBL `pd, pa, bA, bn` (R125). -/
def execPdbl (pd pa : PReg) (bA bn : BReg) (s : State) : Host.Outcome State Fault Refusal :=
  s.complete (.pdbl pd pa bA bn)
    (pointRule s pd (s.big bn) [s.point pa] (pointDouble (s.point pa) (s.big bA) (s.big bn)))

/-- PMUL `pd, pa, bk, bA, bn` (R128). -/
def execPmul (pd pa : PReg) (bk bA bn : BReg) (s : State) : Host.Outcome State Fault Refusal :=
  s.complete (.pmul pd pa bk bA bn)
    (pointRule s pd (s.big bn) [s.point pa]
      (pointMul (s.point pa) (s.big bk) (s.big bA) (s.big bn)))

/-- PNEG `pd, pa, bn` (R131). -/
def execPneg (pd pa : PReg) (bn : BReg) (s : State) : Host.Outcome State Fault Refusal :=
  s.complete (.pneg pd pa bn)
    (pointRule s pd (s.big bn) [s.point pa] (.ok (pointNeg (s.point pa) (s.big bn))))

end Sys2Proof.Machine
end

