-- ==== Sys2Proof/Machine/Dispatch.lean ====
section
/-! DEFINITION. The meaning of each command, one arm per constructor of `Instr`. -/

namespace Sys2Proof.Machine

def exec (i : Instr) (s : State) : Host.Outcome State Fault Refusal :=
  match i with
  | .montmul bd ba bb bn => Sys2Proof.Machine.execMontmul bd ba bb bn s
  | .modexp bd ba be bn => Sys2Proof.Machine.execModexp bd ba be bn s
  | .modinv bd ba bn => Sys2Proof.Machine.execModinv bd ba bn s
  | .gcd bd ba bb => Sys2Proof.Machine.execGcd bd ba bb s
  | .padd pd pa pb bA bn => Sys2Proof.Machine.execPadd pd pa pb bA bn s
  | .pdbl pd pa bA bn => Sys2Proof.Machine.execPdbl pd pa bA bn s
  | .pmul pd pa bk bA bn => Sys2Proof.Machine.execPmul pd pa bk bA bn s
  | .pneg pd pa bn => Sys2Proof.Machine.execPneg pd pa bn s
  | .ldblk bd bn => Sys2Proof.Machine.execLdblk bd bn s
  | .stint bs => Sys2Proof.Machine.execStint bs s
  | .wrunit bs => Sys2Proof.Machine.execWrunit bs s
  | .rdunit bd => Sys2Proof.Machine.execRdunit bd s
  | .wrpt ps => Sys2Proof.Machine.execWrpt ps s
  | .rdpt pd => Sys2Proof.Machine.execRdpt pd s

end Sys2Proof.Machine
end

