-- ==== Sys2Proof/Machine/Step.lean ====
section
/-! DEFINITION. One step: the next event of the total order of 20_memory.md R60. -/

namespace Sys2Proof.Machine

/-- The sequencer's move (30_encoding.md R80): while BUSY is 1 the completion step of the word in CMD; it has
no enabled step otherwise, and the state stays (R80, 60_exceptions.md R207). -/
def State.sequence (s : State) : Host.Outcome State Fault Refusal :=
  if s.busy then
    match s.fetch with
    | .ok i => exec i s
    | .error _ => .next s.unsupported
  else .next s

/-- The delivery of one event (R60). -/
def State.deliver (s : State) : Event → Host.Outcome State Fault Refusal
  | .read offset bytes => .next (s.hostRead offset bytes)
  | .write offset bytes data => .next (s.hostWrite offset bytes data)
  | .hardReset => .next s.performReset
  | .sequencer => s.sequence

/-- One step: the next pending event, or the sequencer's move when none is pending (R60, log 3). -/
def step (s : State) : Host.Outcome State Fault Refusal :=
  match s.pending with
  | [] => s.sequence
  | e :: rest => State.deliver { s with pending := rest } e

/-- The state in which the word `w` of `nbits` bits has been accepted into CMD and runs in the very next step
(30_encoding.md R71, R79; log 2). -/
def State.withFetchWord (s : State) (nbits w : Nat) : State :=
  s.loadCommand (BitVec.ofNat 32 (w % 2 ^ nbits))

end Sys2Proof.Machine
end

