-- ==== Sys2Proof/Safety.lean ====
section
/-! DEFINITION. What a legal state of CORE is, and what a safe run is. Legal states are the premise of the
statements that could fail only in states no run reaches. -/

namespace Sys2Proof.Machine

/-- Every big register holds a natural below `2^W` (10_state.md R20, 40_bigint.md R110). -/
abbrev State.RegsFit (s : State) : Prop := ∀ i : BReg, s.big i < 2 ^ s.cfg.width

/-- At most one of BUSY, DONE, ERR is 1 (10_state.md R28). -/
abbrev State.StatusOk (s : State) : Prop :=
  ¬(s.busy = true ∧ s.done = true) ∧ ¬(s.busy = true ∧ s.err = true) ∧ ¬(s.done = true ∧ s.err = true)

/-- CAUSE holds 0 exactly while ERR is 0, never 7, and ERRPOS is 0 except after a malformed stream
(10_state.md R29, R30). -/
abbrev State.CauseOk (s : State) : Prop :=
  (s.cause = 0 ↔ s.err = false) ∧ s.cause ≠ 7 ∧ (s.cause ≠ 3 → s.errPos = 0)

/-- The buffers are in canonical form and hold no byte outside their size (10_state.md R34). -/
abbrev State.BuffersOk (s : State) : Prop :=
  s.ibuf.Wf ∧ s.ibuf.Below s.cfg.ibytes ∧ s.obuf.Wf ∧ s.obuf.Below s.cfg.obytes

/-- A legal state of a legal instance. -/
structure State.Inv (s : State) : Prop where
  legal : s.cfg.Legal
  regs : s.RegsFit
  status : s.StatusOk
  cause : s.CauseOk
  buffers : s.BuffersOk

/-- A safe run: however many steps are taken, the machine has a next state. -/
def State.RunsOn (s : State) : Prop := ∀ k, ∃ t, Sys2Proof.core.run k s = .next t

end Sys2Proof.Machine
end

