-- ==== Sys2Proof/Certificates/Slice0/Obligations.lean ====
section
/-! DEFINITION. The statements for the provers, and the words they are written in (`Sys2Proof.Claims`), which
say in the spec's own terms what a command or an event leaves. -/

namespace Sys2Proof.Claims

open Sys2Proof.Machine

/-! ### What a command leaves -/

/-- The state `s` after fault entry with CAUSE `code` and ERRPOS `pos`, the five assignments of R206 and
nothing else. -/
def faulted (s : State) (code : BitVec 3) (pos : Word) : State :=
  { s with busy := false, done := false, err := true, cause := code, errPos := pos }

/-- The command ended without a fault (R80) and left every control register alone but BUSY and DONE. -/
structure Completed (s t : State) : Prop where
  busy : t.busy = false
  done : t.done = true
  cfg : t.cfg = s.cfg
  cmd : t.cmd = s.cmd
  err : t.err = s.err
  hostErr : t.hostErr = s.hostErr
  cause : t.cause = s.cause
  errPos : t.errPos = s.errPos
  ieDone : t.ieDone = s.ieDone
  ieErr : t.ieErr = s.ieErr
  ilen : t.ilen = s.ilen
  pending : t.pending = s.pending
  returned : t.returned = s.returned

/-- Every byte of IBUF reads as before. -/
def SameInput (s t : State) : Prop := ∀ a, t.ibuf.read a = s.ibuf.read a

/-- Every byte of OBUF reads as before. -/
def SameOutput (s t : State) : Prop := ∀ a, t.obuf.read a = s.obuf.read a

/-- IPTR, OPTR and CNT are as before. -/
def SamePointers (s t : State) : Prop := t.iptr = s.iptr ∧ t.optr = s.optr ∧ t.cnt = s.cnt

/-- `b[d]` holds `v`; every other big register and every infinity flag is as before. -/
def WroteBig (s : State) (d : BReg) (v : Nat) (t : State) : Prop :=
  t.big d = v ∧ (∀ i, i ≠ d → t.big i = s.big i) ∧ t.pinf = s.pinf

/-- `p[d]` holds `P` (both coordinates 0 when it is the point at infinity, R25); every big register but
`b[2d]`, `b[2d+1]` and every other infinity flag is as before. -/
def WrotePoint (s : State) (d : PReg) (P : Point) (t : State) : Prop :=
  t.point d = P ∧
  (P = .inf → ∀ i : BReg, i.toNat = 2 * d.toNat ∨ i.toNat = 2 * d.toNat + 1 → t.big i = 0) ∧
  (∀ i : BReg, i.toNat ≠ 2 * d.toNat → i.toNat ≠ 2 * d.toNat + 1 → t.big i = s.big i) ∧
  (∀ k < 8, k ≠ d.toNat → t.pinf.getLsbD k = s.pinf.getLsbD k)

/-- IPTR advanced by `c` and CNT is `c`; OPTR is as before (R140). -/
def Consumed (s : State) (c : Nat) (t : State) : Prop :=
  t.iptr.toNat = s.iptr.toNat + c ∧ t.cnt.toNat = c ∧ t.optr = s.optr

/-- The bytes stand in OBUF from OPTR on, every byte outside them reads as before, OPTR advanced by their number
and CNT is that number; IPTR is as before (R140). -/
def Produced (s : State) (l : List Byte) (t : State) : Prop :=
  (∀ (j : Nat) (hj : j < l.length), t.obuf.read (s.optr.toNat + j) = l[j]) ∧
  (∀ a, a < s.optr.toNat ∨ s.optr.toNat + l.length ≤ a → t.obuf.read a = s.obuf.read a) ∧
  t.optr.toNat = s.optr.toNat + l.length ∧ t.cnt.toNat = l.length ∧ t.iptr = s.iptr

/-- A big-integer command completed: `b[d] <- v` and nothing else (R90). -/
def BigResult (s : State) (d : BReg) (v : Nat) (t : State) : Prop :=
  Completed s t ∧ WroteBig s d v t ∧ SamePointers s t ∧ SameInput s t ∧ SameOutput s t

/-- A point command completed: `p[d] <- P` and nothing else (R133). -/
def PointResult (s : State) (d : PReg) (P : Point) (t : State) : Prop :=
  Completed s t ∧ WrotePoint s d P t ∧ SamePointers s t ∧ SameInput s t ∧ SameOutput s t

/-- A load of a big register completed: `b[d] <- v`, `c` bytes consumed, and nothing else (R140). -/
def LoadResult (s : State) (d : BReg) (v c : Nat) (t : State) : Prop :=
  Completed s t ∧ WroteBig s d v t ∧ Consumed s c t ∧ SameInput s t ∧ SameOutput s t

/-- A load of a point register completed: `p[d] <- P`, `c` bytes consumed, and nothing else (R140). -/
def PointLoadResult (s : State) (d : PReg) (P : Point) (c : Nat) (t : State) : Prop :=
  Completed s t ∧ WrotePoint s d P t ∧ Consumed s c t ∧ SameInput s t ∧ SameOutput s t

/-- A store completed: the bytes appended to OBUF, and nothing else (R140). -/
def StoreResult (s : State) (l : List Byte) (t : State) : Prop :=
  Completed s t ∧ (∀ i, t.big i = s.big i) ∧ t.pinf = s.pinf ∧ Produced s l t ∧ SameInput s t

/-! ### The words of the notation, written from 00_scope.md -/

/-- The word with `op` and the five fields, `z = 0`, is the command `i` (R70, R72). -/
def Encodes (op : BitVec 8) (f1 f2 f3 f4 f5 : BitVec 4) (i : Instr) : Prop :=
  decode (packR5 op f1 f2 f3 f4 f5) = .ok i

/-- `Rinv(n)` for the radix `2^W`: the unique natural of R96. -/
def IsRinv (W n r : Nat) : Prop :=
  r < n ∧ r * 2 ^ W % n = 1 % n ∧ ∀ r' < n, r' * 2 ^ W % n = 1 % n → r' = r

/-- `BE(s)`: the sum of R10. -/
def beSum (l : List Byte) : Nat := ∑ j : Fin l.length, (l.get j).toNat * 256 ^ (l.length - 1 - j)

/-- The bytes at `a`, ..., `a + n - 1` of a buffer (R11). -/
def bytesAt (m : Memory) (a n : Nat) : List Byte := List.ofFn fun j : Fin n => m.read (a + j)

/-- `MAG(v)`: the shortest byte string with the value `v` and at least one byte (R10). -/
def IsMag (v : Nat) (l : List Byte) : Prop :=
  beSum l = v ∧ l ≠ [] ∧ ∀ l' : List Byte, beSum l' = v → l' ≠ [] → l.length ≤ l'.length

/-- `UNIT(v)`: four bytes of length, then `MAG(v)` (R146). -/
def IsUnit (v : Nat) (l : List Byte) : Prop :=
  ∃ size m, IsMag v m ∧ size.length = 4 ∧ beSum size = m.length ∧ l = size ++ m

/-- `PT(P)`: the flag byte, then the units of a finite point (R153). -/
def IsPointBytes (P : Point) (l : List Byte) : Prop :=
  match P with
  | .inf => l = [0x01]
  | .finite x y => ∃ ux uy, IsUnit x ux ∧ IsUnit y uy ∧ l = 0x00 :: (ux ++ uy)

/-- The pointer condition of R141. -/
def PointersOk (s : State) : Prop :=
  s.iptr.toNat ≤ s.ilen.toNat ∧ s.ilen.toNat ≤ s.cfg.ibytes ∧ s.optr.toNat ≤ s.cfg.obytes

/-- `PARSE(pos)` of R148 for a `pos` of at most ILEN: the value and the next offset, or the fault's code and
position. -/
def parse (s : State) (pos : Nat) : Except (BitVec 3 × Nat) (Nat × Nat) :=
  let size := beSum (bytesAt s.ibuf pos 4)
  let value := beSum (bytesAt s.ibuf (pos + 4) size)
  if s.ilen.toNat < pos + 4 then .error (3, pos)
  else if 2 ^ 31 ≤ size then .error (3, pos)
  else if s.ilen.toNat < pos + 4 + size then .error (3, pos + 4)
  else if 2 ^ s.cfg.width ≤ value then .error (6, 0)
  else .ok (value, pos + 4 + size)

/-! ### The point formulas, written from 41_ec.md -/

/-- Both coordinates of a finite point are below `p` (R121). -/
def InRange (p : Nat) : Point → Prop
  | .inf => True
  | .finite x y => x < p ∧ y < p

/-- `INV(v, p) = t` (R132). -/
def IsInv (v : Int) (p t : Nat) : Prop := t < p ∧ v * t % p = 1 % (p : Int)

/-- The point of slope `lam` through `(x1, y1)` with the other x coordinate `x2` (the formulas of R122 and
R125). -/
def chord (p : Nat) (lam x1 y1 x2 : Int) : Point :=
  let x3 := (lam * lam - x1 - x2) % p
  let y3 := (lam * (x1 - x3) - y1) % p
  .finite x3.toNat y3.toNat

/-- `DBL(P, a, p)` is `r`, with `none` for ArithmeticError (R125). -/
def DoubleIs (P : Point) (a p : Nat) (r : Option Point) : Prop :=
  match P with
  | .inf => r = some .inf
  | .finite x y =>
    if Int.gcd (2 * y) p ≠ 1 then r = none
    else ∃ inv, IsInv (2 * y) p inv ∧ r = some (chord p ((3 * x * x + a) * inv % p) x y x)

/-- `ADD(P, Q, a, p)` is `r`, with `none` for ArithmeticError (R122). -/
def AddIs (P Q : Point) (a p : Nat) (r : Option Point) : Prop :=
  match P, Q with
  | .inf, _ => r = some Q
  | .finite _ _, .inf => r = some P
  | .finite px py, .finite qx qy =>
    if px = qx ∧ py = qy then DoubleIs P a p r
    else if px = qx then r = some .inf
    else if Int.gcd (qx - px) p ≠ 1 then r = none
    else ∃ inv, IsInv (qx - px) p inv ∧ r = some (chord p (((qy : Int) - py) * inv % p) px py qx)

/-- The loop of R128 for `count` more bits of `k`, the next one being bit `i`, from the running sum and the addend:
its result is `r`, with `none` for ArithmeticError. The addend is doubled after every bit, the top one too (R129). -/
def MulIs (k a p : Nat) : Nat → Nat → Point → Point → Option Point → Prop
  | 0, _, sum, _, r => r = some sum
  | count + 1, i, sum, addend, r =>
    ∃ sum', (if k.testBit i then AddIs sum addend a p sum' else sum' = some sum) ∧
      match sum' with
      | none => r = none
      | some S => ∃ addend', DoubleIs addend a p addend' ∧
        match addend' with
        | none => r = none
        | some A => MulIs k a p count (i + 1) S A r

/-- What a point command does with the result `r` of its computation: ArithmeticError for `none` (R132), the
write of the destination otherwise. -/
def PointOutcome (s : State) (pd : PReg) (r : Option Point) (o : Host.Outcome State Fault Refusal) : Prop :=
  match r with
  | none => o = .next (faulted s 1 0)
  | some R => ∃ t, o = .next t ∧ PointResult s pd R t

/-- What a store command does with its bytes (R144, R147, R151). -/
def StoreOutcome (s : State) (l : List Byte) (o : Host.Outcome State Fault Refusal) : Prop :=
  (¬PointersOk s → o = .next (faulted s 2 0)) ∧
  (PointersOk s → s.cfg.obytes - s.optr.toNat < l.length → o = .next (faulted s 4 0)) ∧
  (PointersOk s → l.length ≤ s.cfg.obytes - s.optr.toNat → ∃ t, o = .next t ∧ StoreResult s l t)

/-! ### Events -/

/-- The step that delivers the event `e` to `s`; the events that were pending still are after it. -/
def after (s : State) (e : Event) : Host.Outcome State Fault Refusal := step { s with pending := e :: s.pending }

/-- A reset, hard or soft (R230). -/
def IsReset (e : Event) : Prop := e = .hardReset ∨ ∃ d : Word, d.getLsbD 0 = true ∧ e = .write 0x10 4 d

/-- Every piece of state of the instance `c` at its value of R36. -/
structure AtReset (c : Config) (t : State) : Prop where
  big : ∀ i, t.big i = 0
  points : ∀ p : PReg, t.point p = .finite 0 0
  pinf : t.pinf = 0
  cmd : t.cmd = 0
  status : t.busy = false ∧ t.done = false ∧ t.err = false ∧ t.hostErr = false
  cause : t.cause = 0
  errPos : t.errPos = 0
  enables : t.ieDone = false ∧ t.ieErr = false
  irq : t.irq = false
  pointers : t.iptr = 0 ∧ t.ilen = 0 ∧ t.optr = 0 ∧ t.cnt = 0
  cfg : t.cfg = c
  ibuf : ∀ a, t.ibuf.read a = 0
  obuf : ∀ a, t.obuf.read a = 0

/-- What the control word at `offset` of the window holds, offset by offset as the table of R51 lays them out, each
by the rule that table names (R27 to R33, R39). -/
def ControlWord (s : State) (offset : Nat) (w : Word) : Prop :=
  match offset with
  | 0x00 => w = s.cmd
  | 0x04 => ∀ k < 32, w.getLsbD k =
      if k = 0 then s.busy else if k = 1 then s.done else if k = 2 then s.err else if k = 3 then s.hostErr
      else false
  | 0x08 => w.toNat = s.cause.toNat
  | 0x0C => w = s.errPos
  | 0x10 => ∀ k < 32, w.getLsbD k = if k = 1 then s.ieDone else if k = 2 then s.ieErr else false
  | 0x14 => w.toNat = s.pinf.toNat
  | 0x18 => w = s.iptr
  | 0x1C => w = s.ilen
  | 0x20 => w = s.optr
  | 0x24 => w = s.cnt
  | 0x28 => w = BitVec.ofNat 32 s.cfg.width
  | 0x2C => w = BitVec.ofNat 32 s.cfg.ibytes
  | 0x30 => w = BitVec.ofNat 32 s.cfg.obytes
  | _ => False

/-- A host access that is no soft reset (R31). -/
def NoReset : Event → Prop
  | .read _ _ => True
  | .write offset bytes d => ¬(offset = 0x10 ∧ bytes = 4 ∧ d.getLsbD 0 = true)
  | .hardReset => False
  | .sequencer => False

/-- The faults a command can raise, by their codes (the table of R217). -/
def mayRaise : Instr → List (BitVec 3)
  | .montmul .. => [2]
  | .modexp .. => [2]
  | .modinv .. => [1, 2]
  | .gcd .. => []
  | .padd .. => [1, 2]
  | .pdbl .. => [1, 2]
  | .pmul .. => [1, 2]
  | .pneg .. => [2]
  | .ldblk .. => [2]
  | .stint .. => [2, 4]
  | .wrunit .. => [2, 4]
  | .rdunit .. => [2, 3, 6]
  | .wrpt .. => [2, 4]
  | .rdpt .. => [2, 3, 6]

/-- The point register a command writes, where it writes one (R24). -/
def pointWritten : Instr → Option PReg
  | .padd pd _ _ _ _ => some pd
  | .pdbl pd _ _ _ => some pd
  | .pmul pd _ _ _ _ => some pd
  | .pneg pd _ _ => some pd
  | .rdpt pd => some pd
  | .montmul .. => none
  | .modexp .. => none
  | .modinv .. => none
  | .gcd .. => none
  | .ldblk .. => none
  | .stint .. => none
  | .wrunit .. => none
  | .rdunit .. => none
  | .wrpt .. => none

end Sys2Proof.Claims

open Sys2Proof Sys2Proof.Machine Sys2Proof.Claims

/-! ## Encoding -/

/-- Decoding the word of a well-formed command gives the command back (R70, R72, R73). -/
def Obligations.DecodeEncode : Prop := ∀ i : Instr, i.wellFormed = true → decode (encode i) = .ok i

/-- A word has at most one meaning: what decodes is the encoding of what it decodes to, and is well-formed
(R74, R83). -/
def Obligations.EncodeDecode : Prop :=
  ∀ (w : Word) (i : Instr), decode w = .ok i → encode i = w ∧ i.wellFormed = true

/-- R72: a word is the command of a row exactly when `w AND mask = match`, and no word matches two rows. -/
def Obligations.OpcodeMapExact : Prop :=
  (∀ r ∈ opcodeMap, ∀ w : Word, w &&& r.mask = r.pattern ↔ ∃ i, decode w = .ok i ∧ i.mnemonic = r.mnemonic) ∧
  (∀ r ∈ opcodeMap, ∀ r' ∈ opcodeMap, ∀ w : Word,
    w &&& r.mask = r.pattern → w &&& r'.mask = r'.pattern → r = r')

/-- R74: which words are not commands, field by field. -/
def Obligations.NotACommandExactly : Prop :=
  ∀ w : Word,
    (∃ e, decode w = .error e) ↔
      zField w ≠ 0 ∨
      (opField w).toNat ∉ [0x01, 0x02, 0x03, 0x04, 0x10, 0x11, 0x12, 0x13, 0x20, 0x21, 0x22, 0x23, 0x24, 0x25] ∨
      ((opField w).toNat ∉ [0x10, 0x12] ∧ field5 w ≠ 0) ∨
      ((opField w).toNat ∉ [0x01, 0x02, 0x10, 0x11, 0x12] ∧ field4 w ≠ 0) ∨
      ((opField w).toNat ∈ [0x20, 0x21, 0x22, 0x23, 0x24, 0x25] ∧ field3 w ≠ 0) ∨
      ((opField w).toNat ∈ [0x21, 0x22, 0x23, 0x24, 0x25] ∧ field2 w ≠ 0) ∨
      ((opField w).toNat ∈ [0x10, 0x11, 0x12, 0x13, 0x24, 0x25] ∧ 8 ≤ (field1 w).toNat) ∨
      ((opField w).toNat ∈ [0x10, 0x11, 0x12, 0x13] ∧ 8 ≤ (field2 w).toNat) ∨
      ((opField w).toNat = 0x10 ∧ 8 ≤ (field3 w).toNat)

/-- Words of each family decode to the commands they stand for (the words of 95_test_vectors.md). -/
def Obligations.WordsOfTheVectors : Prop :=
  decode 0x01301200 = .ok (.montmul 3 0 1 2) ∧ decode 0x02FFFF00 = .ok (.modexp 15 15 15 15) ∧
  decode 0x10543CD0 = .ok (.padd 5 4 3 12 13) ∧ decode 0x1277FFF0 = .ok (.pmul 7 7 15 15 15) ∧
  decode 0x20430000 = .ok (.ldblk 4 3) ∧ decode 0x25100000 = .ok (.rdpt 1) ∧
  decode 0x00000000 = .error .unknownOp ∧ decode 0x01301201 = .error .nonzeroZ ∧
  decode 0x20430100 = .error .unusedField ∧ decode 0x10801CD0 = .error .pointField

/-! ## Issue and completion -/

/-- A step with the sequencer next runs the command in CMD (R80): the decoded command's meaning, fault entry
with code 5 for a word that is no command, and nothing while CORE is not busy. -/
def Obligations.StepRunsCommand : Prop :=
  ∀ s : State,
    (∀ i, s.busy = true → decode s.cmd = .ok i → s.pending = [] → step s = exec i s) ∧
    (∀ i, s.busy = true → decode s.cmd = .ok i → after s .sequencer = exec i s) ∧
    (∀ e, s.busy = true → decode s.cmd = .error e → after s .sequencer = .next (faulted s 5 0)) ∧
    (s.busy = false → after s .sequencer = .next s)

/-- The word that `withFetchWord` places in CMD is the one the next step runs (log 2, the model's own way of
standing for the host's write of CMD). -/
def Obligations.PlacedWordRuns : Prop :=
  ∀ (s : State) (w : Word) (i : Instr), decode w = .ok i →
    step (s.withFetchWord 32 w.toNat) =
      exec i { s with cmd := w, busy := true, done := false, err := false, cause := 0, errPos := 0 }

/-- R203: UnsupportedCommand is raised exactly by the words that match no row, whatever the state holds. -/
def Obligations.UnsupportedExactly : Prop :=
  ∀ s : State, s.busy = true → s.err = false →
    ((∀ r ∈ opcodeMap, s.cmd &&& r.mask ≠ r.pattern) → after s .sequencer = .next (faulted s 5 0)) ∧
    (∀ r ∈ opcodeMap, s.cmd &&& r.mask = r.pattern →
      ∀ t, after s .sequencer = .next t → t.err = true → t.cause ≠ 5)

/-- R79: when a write of CMD is accepted, and its whole effect. -/
def Obligations.AcceptanceExactly : Prop :=
  ∀ (s : State) (w : Word),
    after s (.write 0 4 w) =
      if s.busy = false ∧ s.err = false then .next { s with cmd := w, busy := true, done := false }
      else .next { s with hostErr := true }

/-- No event stops the machine: from every state every run goes on (R80; 93_implementation_defined.md: every
case has an outcome). -/
def Obligations.EveryRunGoesOn : Prop := ∀ s : State, s.RunsOn

/-- R80: a completion step ends the command, with DONE or with ERR, and leaves alone what no command writes:
the parameters, CMD, HOSTERR, CTRL, ILEN and IBUF. -/
def Obligations.CompletionFrame : Prop :=
  ∀ (i : Instr) (s : State), ∃ t, exec i s = .next t ∧ t.busy = false ∧
    ((t.done = true ∧ t.err = s.err ∧ t.cause = s.cause ∧ t.errPos = s.errPos) ∨
      (t.done = false ∧ t.err = true)) ∧
    t.cfg = s.cfg ∧ t.cmd = s.cmd ∧ t.hostErr = s.hostErr ∧ t.ieDone = s.ieDone ∧ t.ieErr = s.ieErr ∧
    t.ilen = s.ilen ∧ SameInput s t ∧ t.pending = s.pending ∧ t.returned = s.returned

/-- A busy CORE comes to rest after at most one step more than there are pending events (R80, R231). -/
def Obligations.BusyComesToRest : Prop :=
  ∀ s : State, s.busy = true →
    ∃ k ≤ s.pending.length + 1, ∃ t, Sys2Proof.core.run k s = .next t ∧ t.busy = false

/-! ## The big-integer unit -/

/-- R92, R96: MONTMUL. -/
def Obligations.MontmulMeaning : Prop :=
  ∀ (s : State) (bd ba bb bn : BReg),
    Encodes 0x01 bd ba bb bn 0 (.montmul bd ba bb bn) ∧
    (s.big bn % 2 = 0 → exec (.montmul bd ba bb bn) s = .next (faulted s 2 0)) ∧
    (s.big bn % 2 = 1 → s.big bn ≤ s.big ba ∨ s.big bn ≤ s.big bb →
      exec (.montmul bd ba bb bn) s = .next (faulted s 2 0)) ∧
    (s.big bn % 2 = 1 → s.big ba < s.big bn → s.big bb < s.big bn → s.RegsFit →
      ∃ r, IsRinv s.cfg.width (s.big bn) r ∧
        ∃ t, exec (.montmul bd ba bb bn) s = .next t ∧
          BigResult s bd (s.big ba * s.big bb * r % s.big bn) t)

/-- Two MONTMULs with `2^(2W) mod n` give the plain product modulo `n`: what R97 derives from R92, R96 and R100. -/
def Obligations.PlainProductByMontmul : Prop :=
  ∀ (s : State) (bd bt bu bv br bn : BReg), s.RegsFit → s.big bn % 2 = 1 → s.big bu < s.big bn →
    s.big bv < s.big bn → s.big br = 2 ^ (2 * s.cfg.width) % s.big bn → bt ≠ bv → bt ≠ bn →
    ∃ t u, exec (.montmul bt bu br bn) s = .next t ∧ exec (.montmul bd bt bv bn) t = .next u ∧
      u.done = true ∧ u.big bd = s.big bu * s.big bv % s.big bn

/-- R100: MODEXP. -/
def Obligations.ModexpMeaning : Prop :=
  ∀ (s : State) (bd ba be bn : BReg),
    Encodes 0x02 bd ba be bn 0 (.modexp bd ba be bn) ∧
    (s.big bn = 0 → exec (.modexp bd ba be bn) s = .next (faulted s 2 0)) ∧
    (s.big bn ≠ 0 → s.RegsFit →
      ∃ t, exec (.modexp bd ba be bn) s = .next t ∧ BigResult s bd (s.big ba ^ s.big be % s.big bn) t)

/-- R104: MODINV. -/
def Obligations.ModinvMeaning : Prop :=
  ∀ (s : State) (bd ba bn : BReg),
    Encodes 0x03 bd ba bn 0 0 (.modinv bd ba bn) ∧
    (s.big bn = 0 → exec (.modinv bd ba bn) s = .next (faulted s 2 0)) ∧
    (s.big bn ≠ 0 → Nat.gcd (s.big ba) (s.big bn) ≠ 1 → exec (.modinv bd ba bn) s = .next (faulted s 1 0)) ∧
    (s.big bn ≠ 0 → Nat.gcd (s.big ba) (s.big bn) = 1 →
      ∃ v < s.big bn, s.big ba * v % s.big bn = 1 % s.big bn ∧
        (∀ v' < s.big bn, s.big ba * v' % s.big bn = 1 % s.big bn → v' = v) ∧
        ∃ t, exec (.modinv bd ba bn) s = .next t ∧ BigResult s bd v t)

/-- R108: GCD, which never faults. -/
def Obligations.GcdMeaning : Prop :=
  ∀ (s : State) (bd ba bb : BReg),
    Encodes 0x04 bd ba bb 0 0 (.gcd bd ba bb) ∧
    ∃ t, exec (.gcd bd ba bb) s = .next t ∧ BigResult s bd (Nat.gcd (s.big ba) (s.big bb)) t

/-! ## The elliptic-curve units -/

/-- R122 with the checks of R121: PADD. -/
def Obligations.PaddMeaning : Prop :=
  ∀ (s : State) (pd pa pb : PReg) (bA bn : BReg), pd.toNat < 8 → pa.toNat < 8 → pb.toNat < 8 →
    Encodes 0x10 pd pa pb bA bn (.padd pd pa pb bA bn) ∧
    (s.big bn = 0 ∨ ¬InRange (s.big bn) (s.point pa) ∨ ¬InRange (s.big bn) (s.point pb) →
      exec (.padd pd pa pb bA bn) s = .next (faulted s 2 0)) ∧
    (s.big bn ≠ 0 → InRange (s.big bn) (s.point pa) → InRange (s.big bn) (s.point pb) →
      ∃ r, AddIs (s.point pa) (s.point pb) (s.big bA) (s.big bn) r ∧
        PointOutcome s pd r (exec (.padd pd pa pb bA bn) s))

/-- R125 with the checks of R121: PDBL. -/
def Obligations.PdblMeaning : Prop :=
  ∀ (s : State) (pd pa : PReg) (bA bn : BReg), pd.toNat < 8 → pa.toNat < 8 →
    Encodes 0x11 pd pa bA bn 0 (.pdbl pd pa bA bn) ∧
    (s.big bn = 0 ∨ ¬InRange (s.big bn) (s.point pa) →
      exec (.pdbl pd pa bA bn) s = .next (faulted s 2 0)) ∧
    (s.big bn ≠ 0 → InRange (s.big bn) (s.point pa) →
      ∃ r, DoubleIs (s.point pa) (s.big bA) (s.big bn) r ∧ PointOutcome s pd r (exec (.pdbl pd pa bA bn) s))

/-- R126: the double of a finite point with `y = 0` is ArithmeticError, not the point at infinity, for every
`p` but 1. -/
def Obligations.DoubleOfOrderTwoFaults : Prop :=
  ∀ (s : State) (pd pa : PReg) (bA bn : BReg) (x : Nat), pd.toNat < 8 → pa.toNat < 8 →
    s.point pa = .finite x 0 → x < s.big bn → 1 < s.big bn →
    exec (.pdbl pd pa bA bn) s = .next (faulted s 1 0) ∧
    exec (.padd pd pa pa bA bn) s = .next (faulted s 1 0)

/-- R128, R129 with the checks of R121: PMUL is the loop over the bits of the scalar, the least significant
first, the addend doubled after every bit. -/
def Obligations.PmulMeaning : Prop :=
  ∀ (s : State) (pd pa : PReg) (bk bA bn : BReg), pd.toNat < 8 → pa.toNat < 8 →
    Encodes 0x12 pd pa bk bA bn (.pmul pd pa bk bA bn) ∧
    (s.big bn = 0 ∨ ¬InRange (s.big bn) (s.point pa) →
      exec (.pmul pd pa bk bA bn) s = .next (faulted s 2 0)) ∧
    (s.big bn ≠ 0 → InRange (s.big bn) (s.point pa) →
      ∃ r, MulIs (s.big bk) (s.big bA) (s.big bn) (Nat.size (s.big bk)) 0 .inf (s.point pa) r ∧
        PointOutcome s pd r (exec (.pmul pd pa bk bA bn) s))

/-- R131 with the checks of R121: PNEG. -/
def Obligations.PnegMeaning : Prop :=
  ∀ (s : State) (pd pa : PReg) (bn : BReg), pd.toNat < 8 → pa.toNat < 8 →
    Encodes 0x13 pd pa bn 0 0 (.pneg pd pa bn) ∧
    (s.big bn = 0 ∨ ¬InRange (s.big bn) (s.point pa) → exec (.pneg pd pa bn) s = .next (faulted s 2 0)) ∧
    (s.big bn ≠ 0 → s.point pa = .inf →
      ∃ t, exec (.pneg pd pa bn) s = .next t ∧ PointResult s pd .inf t) ∧
    (∀ x y, s.point pa = .finite x y → x < s.big bn → y < s.big bn →
      ∃ t, exec (.pneg pd pa bn) s = .next t ∧ PointResult s pd (.finite x ((s.big bn - y) % s.big bn)) t)

/-- Where PADD and PDBL complete over an odd prime, and PMUL by 0 and by 1 (R132: the inverse fails for 0 alone): PADD
except for a point with `y = 0` added to itself, PDBL except for a finite point with `y = 0`, PMUL by 0 always and by
1 except for a finite point with `y = 0`. -/
def Obligations.PrimeFieldCompletes : Prop :=
  ∀ (s : State) (pd pa pb : PReg) (bk bA bn : BReg), pd.toNat < 8 → pa.toNat < 8 → pb.toNat < 8 →
    (s.big bn).Prime → s.big bn ≠ 2 → InRange (s.big bn) (s.point pa) →
    (InRange (s.big bn) (s.point pb) → (∀ x, ¬(s.point pa = .finite x 0 ∧ s.point pb = .finite x 0)) →
      ∃ t R, exec (.padd pd pa pb bA bn) s = .next t ∧ PointResult s pd R t ∧ InRange (s.big bn) R) ∧
    ((∀ x, s.point pa ≠ .finite x 0) →
      ∃ t R, exec (.pdbl pd pa bA bn) s = .next t ∧ PointResult s pd R t ∧ InRange (s.big bn) R) ∧
    (s.big bk = 0 → ∃ t, exec (.pmul pd pa bk bA bn) s = .next t ∧ PointResult s pd .inf t) ∧
    (s.big bk = 1 → (∀ x, s.point pa ≠ .finite x 0) →
      ∃ t, exec (.pmul pd pa bk bA bn) s = .next t ∧ PointResult s pd (s.point pa) t)

/-- A point and its negation add to infinity (R122, R131), for a finite point that is not its own negation. -/
def Obligations.PointPlusNegation : Prop :=
  ∀ (s : State) (pd pa pq : PReg) (bA bn : BReg) (x y : Nat),
    pd.toNat < 8 → pa.toNat < 8 → pq.toNat < 8 → pq ≠ pa →
    bn.toNat ≠ 2 * pq.toNat → bn.toNat ≠ 2 * pq.toNat + 1 →
    s.point pa = .finite x y → x < s.big bn → y < s.big bn → y ≠ 0 → 2 * y ≠ s.big bn →
    ∃ t u, exec (.pneg pq pa bn) s = .next t ∧ exec (.padd pd pa pq bA bn) t = .next u ∧
      u.done = true ∧ u.point pd = .inf

/-! ## The codec -/

/-- R142, R143: LDBLK. -/
def Obligations.LdblkMeaning : Prop :=
  ∀ (s : State) (bd bn : BReg),
    Encodes 0x20 bd bn 0 0 0 (.ldblk bd bn) ∧
    (¬PointersOk s ∨ s.big bn < 256 → exec (.ldblk bd bn) s = .next (faulted s 2 0)) ∧
    (PointersOk s → 256 ≤ s.big bn →
      let c := min ((Nat.size (s.big bn) - 1) / 8) (s.ilen.toNat - s.iptr.toNat)
      ∃ t, exec (.ldblk bd bn) s = .next t ∧
        LoadResult s bd (beSum (bytesAt s.ibuf s.iptr.toNat c)) c t)

/-- R143: a block is below its modulus. -/
def Obligations.BlockBelowModulus : Prop :=
  ∀ (s : State) (bd bn : BReg), PointersOk s → 256 ≤ s.big bn →
    ∃ t, exec (.ldblk bd bn) s = .next t ∧ t.done = true ∧ t.big bd < s.big bn

/-- R10, R146, R147: `mag v`, which STINT stores, is the one minimal magnitude of `v`, and `unitBytes v`, which WRUNIT
stores, is the one unit of a register's value, of 5 to `4 + W/8` bytes. -/
def Obligations.MagnitudeAndUnit : Prop :=
  (∀ v, IsMag v (mag v) ∧ ∀ l, IsMag v l → l = mag v) ∧
  (∀ (c : Config) (v : Nat), c.Legal → v < 2 ^ c.width →
    IsUnit v (unitBytes v) ∧ (∀ l, IsUnit v l → l = unitBytes v) ∧
      5 ≤ (unitBytes v).length ∧ (unitBytes v).length ≤ 4 + c.width / 8)

/-- R144: STINT. -/
def Obligations.StintMeaning : Prop :=
  ∀ (s : State) (bs : BReg) (l : List Byte), s.cfg.Legal → s.obuf.Wf → IsMag (s.big bs) l →
    Encodes 0x21 bs 0 0 0 0 (.stint bs) ∧ StoreOutcome s l (exec (.stint bs) s)

/-- R147: WRUNIT. -/
def Obligations.WrunitMeaning : Prop :=
  ∀ (s : State) (bs : BReg) (l : List Byte), s.cfg.Legal → s.obuf.Wf → IsUnit (s.big bs) l →
    Encodes 0x22 bs 0 0 0 0 (.wrunit bs) ∧ StoreOutcome s l (exec (.wrunit bs) s)

/-- R148, R150: RDUNIT. -/
def Obligations.RdunitMeaning : Prop :=
  ∀ (s : State) (bd : BReg),
    Encodes 0x23 bd 0 0 0 0 (.rdunit bd) ∧
    (¬PointersOk s → exec (.rdunit bd) s = .next (faulted s 2 0)) ∧
    (PointersOk s → ∀ code pos, parse s s.iptr.toNat = .error (code, pos) →
      exec (.rdunit bd) s = .next (faulted s code (BitVec.ofNat 32 pos))) ∧
    (PointersOk s → ∀ v q, parse s s.iptr.toNat = .ok (v, q) →
      ∃ t, exec (.rdunit bd) s = .next t ∧ LoadResult s bd v (q - s.iptr.toNat) t)

/-- R151, R153: WRPT. -/
def Obligations.WrptMeaning : Prop :=
  ∀ (s : State) (ps : PReg) (l : List Byte), ps.toNat < 8 → s.cfg.Legal → s.obuf.Wf →
    IsPointBytes (s.point ps) l →
    Encodes 0x24 ps 0 0 0 0 (.wrpt ps) ∧ StoreOutcome s l (exec (.wrpt ps) s)

/-- R152: RDPT. -/
def Obligations.RdptMeaning : Prop :=
  ∀ (s : State) (pd : PReg), pd.toNat < 8 →
    let at0 := s.iptr.toNat
    let flag := s.ibuf.read at0
    Encodes 0x25 pd 0 0 0 0 (.rdpt pd) ∧
    (¬PointersOk s → exec (.rdpt pd) s = .next (faulted s 2 0)) ∧
    (PointersOk s → s.ilen.toNat = at0 ∨ (flag ≠ 0x00 ∧ flag ≠ 0x01) →
      exec (.rdpt pd) s = .next (faulted s 3 s.iptr)) ∧
    (PointersOk s → at0 < s.ilen.toNat → flag = 0x01 →
      ∃ t, exec (.rdpt pd) s = .next t ∧ PointLoadResult s pd .inf 1 t) ∧
    (PointersOk s → at0 < s.ilen.toNat → flag = 0x00 →
      match parse s (at0 + 1) with
      | .error (code, pos) => exec (.rdpt pd) s = .next (faulted s code (BitVec.ofNat 32 pos))
      | .ok (x, n1) =>
        match parse s n1 with
        | .error (code, pos) => exec (.rdpt pd) s = .next (faulted s code (BitVec.ofNat 32 pos))
        | .ok (y, n2) =>
          ∃ t, exec (.rdpt pd) s = .next t ∧ PointLoadResult s pd (.finite x y) (n2 - at0) t)

/-- R141: all six codec commands make the pointer check first, whichever buffer they use. -/
def Obligations.PointerCheckFirst : Prop :=
  ∀ (s : State) (i : Instr), ¬PointersOk s → i.wellFormed = true →
    i.mnemonic ∈ ["LDBLK", "STINT", "WRUNIT", "RDUNIT", "WRPT", "RDPT"] →
    exec i s = .next (faulted s 2 0)

/-- R145: which byte strings survive `fromInteger(toInteger(bytes))`: those whose first byte is not zero, and
the single byte 00. -/
def Obligations.RoundTripOfBytes : Prop :=
  ∀ l : List Byte, mag (beValue l) = l ↔ (∃ b l', l = b :: l' ∧ b ≠ 0) ∨ l = [0]

/-- RDUNIT reads back what WRUNIT wrote (R147, R148, R150): when the bytes produced stand at IPTR of the reading
state, the register gets the value written and exactly those bytes are consumed. -/
def Obligations.UnitRoundTrip : Prop :=
  ∀ (s t u : State) (bs bd : BReg), s.Inv → s.err = false → exec (.wrunit bs) s = .next t → t.err = false →
    u.cfg.width = s.cfg.width → PointersOk u → t.cnt.toNat ≤ u.ilen.toNat - u.iptr.toNat →
    (∀ j < t.cnt.toNat, u.ibuf.read (u.iptr.toNat + j) = t.obuf.read (s.optr.toNat + j)) →
    ∃ v, exec (.rdunit bd) u = .next v ∧ LoadResult u bd (s.big bs) t.cnt.toNat v

/-- RDPT reads back what WRPT wrote (R151, R152, R153), the point at infinity too. -/
def Obligations.PointRoundTrip : Prop :=
  ∀ (s t u : State) (ps pd : PReg), ps.toNat < 8 → pd.toNat < 8 → s.Inv → s.err = false →
    exec (.wrpt ps) s = .next t → t.err = false →
    u.cfg.width = s.cfg.width → PointersOk u → t.cnt.toNat ≤ u.ilen.toNat - u.iptr.toNat →
    (∀ j < t.cnt.toNat, u.ibuf.read (u.iptr.toNat + j) = t.obuf.read (s.optr.toNat + j)) →
    ∃ v, exec (.rdpt pd) u = .next v ∧ PointLoadResult u pd (s.point ps) t.cnt.toNat v

/-- R149: a malformed stream is reported at an offset inside it. -/
def Obligations.ErrposInsideStream : Prop :=
  ∀ (s t : State) (i : Instr), s.err = false → exec i s = .next t → t.err = true → t.cause = 3 →
    s.iptr.toNat ≤ t.errPos.toNat ∧ t.errPos.toNat ≤ s.ilen.toNat

/-! ## Faults -/

/-- R206, R201: a faulting command writes nothing but the five assignments of fault entry; the code is 1 to 6,
and ERRPOS is 0 except for code 3. -/
def Obligations.FaultEntryExactly : Prop :=
  ∀ (s t : State) (i : Instr), s.err = false → exec i s = .next t → t.err = true →
    t = faulted s t.cause t.errPos ∧ 1 ≤ t.cause.toNat ∧ t.cause.toNat ≤ 6 ∧ (t.cause ≠ 3 → t.errPos = 0)

/-- R217: which faults a command can raise. -/
def Obligations.FaultsByCommand : Prop :=
  ∀ (s t : State) (i : Instr), i.wellFormed = true → s.err = false → exec i s = .next t → t.err = true →
    t.cause ∈ mayRaise i

/-- R207: the faulted state. Every mapped read is performed, every write but CTRL's is refused, the sequencer has
no step, and a reset, which clears every register and buffer, is the only exit. -/
def Obligations.FaultedState : Prop :=
  ∀ s : State, s.err = true → s.busy = false →
    (∀ offset l, target s.cfg offset 4 = some l →
      after s (.read offset 4) = .next { s with returned := s.locRead l :: s.returned }) ∧
    (∀ offset bytes d, ¬(offset = 0x10 ∧ bytes = 4) →
      after s (.write offset bytes d) = .next { s with hostErr := true }) ∧
    (∀ d : Word, d.getLsbD 0 = false →
      after s (.write 0x10 4 d) = .next { s with ieDone := d.getLsbD 1, ieErr := d.getLsbD 2 }) ∧
    after s .sequencer = .next s ∧
    (∀ e, IsReset e → ∃ t, after s e = .next t ∧ AtReset s.cfg t) ∧
    (∀ (e : Event) (t : State), after s e = .next t → t.err = false → IsReset e)

/-- R24, R133: PADD, PDBL, PMUL, PNEG and RDPT write the flag of their destination alone; no other command
writes PINF. -/
def Obligations.PinfWriters : Prop :=
  ∀ (s t : State) (i : Instr), exec i s = .next t →
    ∀ k < 8, (∀ pd, pointWritten i = some pd → k ≠ pd.toNat) → t.pinf.getLsbD k = s.pinf.getLsbD k

/-! ## The host's window -/

/-- R51, R52, R59: accesses that are not aligned, not 4 bytes wide, or not mapped are refused (R58). -/
def Obligations.UnmappedRefused : Prop :=
  ∀ (s : State) (offset bytes : Nat) (d : Word),
    (bytes ≠ 4 ∨ offset % 4 ≠ 0 ∨ (0x34 ≤ offset ∧ offset < 0x1000) ∨
      (0x1000 ≤ offset ∧ offset < 0x3000 ∧ s.cfg.width / 32 ≤ (offset - 0x1000) % 0x200 / 4) ∨
      (0x3000 ≤ offset ∧ offset < 0x4000) ∨ (0x4000 + s.cfg.ibytes ≤ offset ∧ offset < 0x8000) ∨
      0x8000 + s.cfg.obytes ≤ offset ∧ 0x8000 ≤ offset) →
    after s (.read offset bytes) = .next { s with hostErr := true, returned := 0 :: s.returned } ∧
    after s (.write offset bytes d) = .next { s with hostErr := true }

/-- R51, R56, R57: every mapped word can be read while CORE is not busy, and the control registers at any time;
a performed read returns the word's value, the control word of its offset by the table of R51, and changes nothing
of the machine; any other is refused. -/
def Obligations.ReadRules : Prop :=
  ∀ (s : State) (offset : Nat), offset % 4 = 0 →
    (offset < 0x34 → ∃ w, ControlWord s offset w ∧
      after s (.read offset 4) = .next { s with returned := w :: s.returned }) ∧
    (∀ (i : BReg) (j : Nat), j < s.cfg.width / 32 → j < 128 → offset = 0x1000 + 0x200 * i.toNat + 4 * j →
      s.busy = false →
      after s (.read offset 4) =
        .next { s with returned := BitVec.ofNat 32 (s.big i / 2 ^ (32 * j)) :: s.returned }) ∧
    (∀ k < s.cfg.ibytes, k < 0x4000 → offset = 0x4000 + k → s.busy = false →
      after s (.read offset 4) =
        .next { s with returned :=
          (s.ibuf.read (k + 3) ++ s.ibuf.read (k + 2) ++ s.ibuf.read (k + 1) ++ s.ibuf.read k) :: s.returned }) ∧
    (∀ k < s.cfg.obytes, k < 0x4000 → offset = 0x8000 + k → s.busy = false →
      after s (.read offset 4) =
        .next { s with returned :=
          (s.obuf.read (k + 3) ++ s.obuf.read (k + 2) ++ s.obuf.read (k + 1) ++ s.obuf.read k) :: s.returned }) ∧
    (s.busy = true → 0x1000 ≤ offset →
      after s (.read offset 4) = .next { s with hostErr := true, returned := 0 :: s.returned })

/-- R56: the writes that are never performed, and those that are not performed while CORE is busy or faulted. -/
def Obligations.WriteRules : Prop :=
  ∀ (s : State) (offset : Nat) (d : Word),
    (offset ∈ [0x04, 0x08, 0x0C, 0x24, 0x28, 0x2C, 0x30] →
      after s (.write offset 4 d) = .next { s with hostErr := true }) ∧
    (s.busy = true ∨ s.err = true → offset ≠ 0x10 →
      after s (.write offset 4 d) = .next { s with hostErr := true }) ∧
    (s.busy = false → s.err = false →
      after s (.write 0x14 4 d) = .next { s with pinf := d.setWidth 8 } ∧
      after s (.write 0x18 4 d) = .next { s with iptr := d } ∧
      after s (.write 0x1C 4 d) = .next { s with ilen := d } ∧
      after s (.write 0x20 4 d) = .next { s with optr := d })

/-- R55: a register is the sum of its limbs; a read of a limb returns it, and a write replaces it and leaves the
other limbs and the other registers. -/
def Obligations.LimbWindow : Prop :=
  ∀ (s : State) (i : BReg) (j : Nat) (d : Word), s.cfg.Legal → s.RegsFit → s.busy = false → s.err = false →
    j < s.cfg.width / 32 →
    s.big i = ∑ k : Fin (s.cfg.width / 32), s.big i / 2 ^ (32 * (k : Nat)) % 2 ^ 32 * 2 ^ (32 * (k : Nat)) ∧
    after s (.read (0x1000 + 0x200 * i.toNat + 4 * j) 4) =
      .next { s with returned := BitVec.ofNat 32 (s.big i / 2 ^ (32 * j)) :: s.returned } ∧
    ∃ t, after s (.write (0x1000 + 0x200 * i.toNat + 4 * j) 4 d) = .next t ∧
      t.big i / 2 ^ (32 * j) % 2 ^ 32 = d.toNat ∧ t.big i < 2 ^ s.cfg.width ∧
      (∀ k, k ≠ j → t.big i / 2 ^ (32 * k) % 2 ^ 32 = s.big i / 2 ^ (32 * k) % 2 ^ 32) ∧
      (∀ i', i' ≠ i → t.big i' = s.big i') ∧ t = { s with regs := t.regs }

/-- R53: a word of a buffer window is four bytes, the lowest lane at the lowest offset; a read returns them and a
write writes them, and no other byte changes. -/
def Obligations.BufferWindow : Prop :=
  ∀ (s : State) (k : Nat) (d : Word), s.cfg.Legal → s.BuffersOk → s.busy = false → s.err = false → k % 4 = 0 →
    (k < s.cfg.ibytes →
      (∃ w : Word, (∀ j < 4, w.toNat / 256 ^ j % 256 = (s.ibuf.read (k + j)).toNat) ∧
        after s (.read (0x4000 + k) 4) = .next { s with returned := w :: s.returned }) ∧
      ∃ t, after s (.write (0x4000 + k) 4 d) = .next t ∧
        (∀ j < 4, (t.ibuf.read (k + j)).toNat = d.toNat / 256 ^ j % 256) ∧
        (∀ a, a < k ∨ k + 4 ≤ a → t.ibuf.read a = s.ibuf.read a) ∧ t = { s with ibuf := t.ibuf }) ∧
    (k < s.cfg.obytes →
      (∃ w : Word, (∀ j < 4, w.toNat / 256 ^ j % 256 = (s.obuf.read (k + j)).toNat) ∧
        after s (.read (0x8000 + k) 4) = .next { s with returned := w :: s.returned }) ∧
      ∃ t, after s (.write (0x8000 + k) 4 d) = .next t ∧
        (∀ j < 4, (t.obuf.read (k + j)).toNat = d.toNat / 256 ^ j % 256) ∧
        (∀ a, a < k ∨ k + 4 ≤ a → t.obuf.read a = s.obuf.read a) ∧ t = { s with obuf := t.obuf })

/-- R27 to R33, R39: what the control registers read as, bit by bit where they have fields. -/
def Obligations.ControlRegisterValues : Prop :=
  ∀ s : State,
    s.ctlRead .cmd = s.cmd ∧
    (∀ k < 32, (s.ctlRead .status).getLsbD k =
      if k = 0 then s.busy else if k = 1 then s.done else if k = 2 then s.err else if k = 3 then s.hostErr
      else false) ∧
    (s.ctlRead .cause).toNat = s.cause.toNat ∧ s.ctlRead .errPos = s.errPos ∧
    (∀ k < 32, (s.ctlRead .ctrl).getLsbD k =
      if k = 1 then s.ieDone else if k = 2 then s.ieErr else false) ∧
    (s.ctlRead .pinf).toNat = s.pinf.toNat ∧ s.ctlRead .iptr = s.iptr ∧ s.ctlRead .ilen = s.ilen ∧
    s.ctlRead .optr = s.optr ∧ s.ctlRead .cnt = s.cnt ∧
    (s.cfg.Legal → (s.ctlRead .width).toNat = s.cfg.width ∧ (s.ctlRead .ibsz).toNat = s.cfg.ibytes ∧
      (s.ctlRead .obsz).toNat = s.cfg.obytes)

/-- R31: CTRL, in every state: a write is a reset when bit 0 is 1 and sets the enables from bits 1 and 2 otherwise;
a read returns the enables in bits 1 and 2, and 0 in every other bit. -/
def Obligations.CtrlRegister : Prop :=
  ∀ (s : State) (d : Word),
    (d.getLsbD 0 = true → after s (.write 0x10 4 d) = after s .hardReset) ∧
    (d.getLsbD 0 = false →
      after s (.write 0x10 4 d) = .next { s with ieDone := d.getLsbD 1, ieErr := d.getLsbD 2 }) ∧
    ∃ w : Word, after s (.read 0x10 4) = .next { s with returned := w :: s.returned } ∧
      ∀ k < 32, w.getLsbD k = if k = 1 then s.ieDone else if k = 2 then s.ieErr else false

/-- R23, R24: a write of a coordinate's limb changes the point's coordinate and no infinity flag. -/
def Obligations.PointsAreViews : Prop :=
  ∀ (s : State) (p : PReg) (i : BReg) (v : Nat), p.toNat < 8 →
    (i.toNat = 2 * p.toNat → s.pinf.getLsbD p.toNat = false →
      (s.setBig i v).point p = .finite v (s.big (2 * p + 1))) ∧
    (i.toNat = 2 * p.toNat + 1 → s.pinf.getLsbD p.toNat = false →
      (s.setBig i v).point p = .finite (s.big (2 * p)) v) ∧
    (s.pinf.getLsbD p.toNat = true → (s.setBig i v).point p = .inf) ∧
    (s.setBig i v).pinf = s.pinf

/-! ## Order -/

/-- R60: between acceptance and completion no access that is not a reset changes a big register, PINF, a pointer,
a buffer, CMD or the command's status. -/
def Obligations.BusyStateFrozen : Prop :=
  ∀ (s : State) (e : Event), s.busy = true → NoReset e →
    ∃ t, after s e = .next t ∧
      t = { s with hostErr := t.hostErr, ieDone := t.ieDone, ieErr := t.ieErr, returned := t.returned }

/-- R60, R62: the host's accesses while a command runs do not change its result: after any string of them that
holds no reset, the completion step leaves what it would have left at once, but for HOSTERR, the two enables and
the words returned. -/
def Obligations.PollingChangesNoResult : Prop :=
  ∀ (es : List Event) (s : State), s.busy = true → s.pending = es → (∀ e ∈ es, NoReset e) →
    ∃ t u, Sys2Proof.core.run (es.length + 1) s = .next t ∧ step { s with pending := [] } = .next u ∧
      t = { u with hostErr := t.hostErr, ieDone := t.ieDone, ieErr := t.ieErr, returned := t.returned }

/-! ## Reset -/

/-- R230, R231: a hard reset and a soft reset have one effect, in every state: everything at its reset value, so
that no command is in execution. -/
def Obligations.ResetIsOneEvent : Prop :=
  ∀ (s : State) (d : Word), d.getLsbD 0 = true →
    after s .hardReset = .next { State.resetWith s.cfg with pending := s.pending, returned := s.returned } ∧
    after s (.write 0x10 4 d) = after s .hardReset

/-- R36: after a hard reset and after a soft reset alike, in every state, every piece of state has its reset value;
so has the reset state of every instance. -/
def Obligations.ResetValues : Prop :=
  (∀ (s : State) (e : Event), IsReset e → ∃ t, after s e = .next t ∧ AtReset s.cfg t) ∧
  ∀ c : Config, AtReset c (State.resetWith c)

/-- R209: the interrupt line is a function of state, low after reset. It falls when a command is accepted and when the
enable of the status bit that holds it is cleared (both enables, should both status bits be 1, as they are in no
legal state); a completion leaves it high exactly when its outcome, DONE or ERR, is enabled. -/
def Obligations.InterruptLine : Prop :=
  ∀ s : State,
    (s.irq = true ↔ (s.done = true ∧ s.ieDone = true) ∨ (s.err = true ∧ s.ieErr = true)) ∧
    (∀ e, IsReset e → ∃ t, after s e = .next t ∧ t.irq = false) ∧
    (s.busy = false → s.err = false → ∀ w, ∃ t, after s (.write 0 4 w) = .next t ∧ t.irq = false) ∧
    (∀ d : Word, ∃ t, after s (.write 0x10 4 d) = .next t ∧
      (t.irq = true ↔ d.getLsbD 0 = false ∧
        ((s.done = true ∧ d.getLsbD 1 = true) ∨ (s.err = true ∧ d.getLsbD 2 = true))) ∧
      (s.err = false → d.getLsbD 1 = false → t.irq = false) ∧
      (s.done = false → d.getLsbD 2 = false → t.irq = false) ∧
      (d.getLsbD 1 = false → d.getLsbD 2 = false → t.irq = false)) ∧
    (∀ i : Instr, ∃ t, exec i s = .next t ∧ (t.done = true ∨ t.err = true) ∧
      (t.irq = true ↔ (t.done = true ∧ s.ieDone = true) ∨ (t.err = true ∧ s.ieErr = true)) ∧
      (s.ieDone = true → s.ieErr = true → t.irq = true))

/-! ## Invariants -/

/-- Every step keeps a legal state legal: the registers stay below `2^W` (R20, R110), at most one of BUSY, DONE,
ERR is 1 (R28), CAUSE and ERRPOS agree with ERR (R29, R30), the buffers stay inside their size (R34). -/
def Obligations.StepKeepsInv : Prop := ∀ s t : State, s.Inv → step s = .next t → t.Inv

/-- Every instance is in a legal state after reset. That `State.reset` is the reset state of the vectors' instance is
the model's choice: 00_scope.md R5 leaves the parameters open (log 1). -/
def Obligations.ResetInv : Prop :=
  (∀ c : Config, c.Legal → (State.resetWith c).Inv) ∧
  State.reset = State.resetWith Config.vectors ∧ State.reset.Inv
end

