-- ==== Sys2Proof/Laws/Memory.lean ====
section
/-! SUPPORT. The laws of a buffer's memory: every operation keeps the canonical form and the bound, and a read
after a write gives the byte written at that address and the old byte at every other. -/

namespace Sys2Proof.Machine

@[simp] theorem Memory.read_nil (a : Nat) : Memory.read [] a = unlisted := rfl

theorem Memory.wf_nil : Memory.Wf [] := ⟨List.Pairwise.nil, by simp⟩

/-- An address below every listed one reads as unlisted. -/
theorem Memory.read_of_lt (m : Memory) (a : Nat) (h : ∀ c ∈ m, a < c.1) : m.read a = unlisted := by
  induction m with
  | nil => rfl
  | cons c m ih =>
    have hc : a < c.1 := h c (by simp)
    simp only [Memory.read, if_neg (by omega : ¬ c.1 = a)]
    exact ih fun d hd => h d (by simp [hd])

/-- The addresses of a memory after a write. -/
theorem Memory.mem_write (m : Memory) (a : Nat) (v : Byte) (c : Host.Cell) (h : c ∈ m.write a v) :
    c ∈ m ∨ (c = (a, v) ∧ v ≠ unlisted) := by
  induction m with
  | nil =>
    by_cases hv : v = unlisted <;> simp_all [Memory.write]
  | cons d m ih =>
    obtain ⟨k, w⟩ := d
    simp only [Memory.write] at h
    split at h
    · split at h <;> first | (simp_all; done) | (simp_all; tauto)
    · split at h
      · split at h <;> first | (simp_all; done) | (simp_all; tauto)
      · rcases List.mem_cons.1 h with h | h
        · exact .inl (by simp [h])
        · exact (ih h).imp_left fun h => by simp [h]

/-- A write keeps the canonical form. -/
theorem Memory.wf_write (m : Memory) (a : Nat) (v : Byte) (h : m.Wf) : (m.write a v).Wf := by
  refine ⟨?_, fun c hc => ?_⟩
  · obtain ⟨hp, -⟩ := h
    induction m with
    | nil => by_cases hv : v = unlisted <;> simp [Memory.write, hv]
    | cons d m ih =>
      obtain ⟨k, w⟩ := d
      obtain ⟨hk, hp⟩ := List.pairwise_cons.1 hp
      simp only [Memory.write]
      split
      · split
        · exact List.pairwise_cons.2 ⟨hk, hp⟩
        · refine List.pairwise_cons.2 ⟨fun c hc => ?_, List.pairwise_cons.2 ⟨hk, hp⟩⟩
          rcases List.mem_cons.1 hc with rfl | hc
          · assumption
          · have := hk c hc
            simp only at this ⊢
            omega
      · split
        · split
          · exact hp
          · refine List.pairwise_cons.2 ⟨fun c hc => ?_, hp⟩
            have := hk c hc
            simp only at this ⊢
            omega
        · refine List.pairwise_cons.2 ⟨fun c hc => ?_, ih hp⟩
          rcases Memory.mem_write m a v c hc with hc | ⟨rfl, -⟩
          · exact hk c hc
          · simp only
            omega
  · rcases Memory.mem_write m a v c hc with hc | ⟨rfl, hv⟩
    · exact h.2 c hc
    · exact hv

/-- A write inside the buffer keeps every listed address inside it. -/
theorem Memory.below_write (m : Memory) (a n : Nat) (v : Byte) (h : m.Below n) (ha : a < n) :
    (m.write a v).Below n := by
  intro c hc
  rcases Memory.mem_write m a v c hc with hc | ⟨rfl, -⟩
  · exact h c hc
  · exact ha

/-- Reading the written address gives the byte written. -/
theorem Memory.read_write_same (m : Memory) (a : Nat) (v : Byte) (h : m.Wf) : (m.write a v).read a = v := by
  obtain ⟨hp, -⟩ := h
  induction m with
  | nil => by_cases hv : v = unlisted <;> simp [Memory.write, Memory.read, hv]
  | cons d m ih =>
    obtain ⟨k, w⟩ := d
    obtain ⟨hk, hp⟩ := List.pairwise_cons.1 hp
    simp only [Memory.write]
    split
    · split
      · rename_i hv
        rw [hv]
        refine Memory.read_of_lt _ _ fun c hc => ?_
        rcases List.mem_cons.1 hc with rfl | hc
        · assumption
        · have := hk c hc
          simp only at this
          omega
      · simp [Memory.read]
    · split
      · split
        · rename_i h1 hv
          rw [hv]
          refine Memory.read_of_lt _ _ fun c hc => ?_
          have := hk c hc
          simp only at this
          omega
        · simp [Memory.read]
      · rename_i h1 h2
        simp only [Memory.read, if_neg (Ne.symm h2)]
        exact ih hp

/-- Reading another address gives the byte that was there. -/
theorem Memory.read_write_other (m : Memory) (a b : Nat) (v : Byte) (hab : b ≠ a) :
    (m.write a v).read b = m.read b := by
  induction m with
  | nil => by_cases hv : v = unlisted <;> simp [Memory.write, Memory.read, hv, Ne.symm hab]
  | cons d m ih =>
    obtain ⟨k, w⟩ := d
    simp only [Memory.write]
    split
    · split
      · rfl
      · simp [Memory.read, Ne.symm hab]
    · split
      · rename_i h1 h2
        subst h2
        split <;> simp [Memory.read, Ne.symm hab]
      · simp only [Memory.read, ih]

/-- A string of writes keeps the canonical form. -/
theorem Memory.wf_writeBytes (l : List Byte) : ∀ (m : Memory) (a : Nat), m.Wf → (m.writeBytes a l).Wf := by
  induction l with
  | nil => exact fun _ _ h => h
  | cons b l ih => exact fun m a h => ih _ _ (Memory.wf_write m a b h)

/-- A string of writes inside the buffer keeps every listed address inside it. -/
theorem Memory.below_writeBytes (l : List Byte) :
    ∀ (m : Memory) (a n : Nat), m.Below n → a + l.length ≤ n → (m.writeBytes a l).Below n := by
  induction l with
  | nil => exact fun _ _ _ h _ => h
  | cons b l ih =>
    intro m a n h hn
    simp only [List.length_cons] at hn
    exact ih _ _ _ (Memory.below_write m a n b h (by omega)) (by omega)

/-- A string of writes leaves every byte outside it. -/
theorem Memory.read_writeBytes_other (l : List Byte) :
    ∀ (m : Memory) (a b : Nat), (b < a ∨ a + l.length ≤ b) → (m.writeBytes a l).read b = m.read b := by
  induction l with
  | nil => exact fun _ _ _ _ => rfl
  | cons c l ih =>
    intro m a b h
    simp only [List.length_cons] at h
    rw [Memory.writeBytes, ih _ _ _ (by omega), Memory.read_write_other _ _ _ _ (by omega)]

/-- Byte `j` of a written string is read back at offset `j`. -/
theorem Memory.read_writeBytes_same (l : List Byte) :
    ∀ (m : Memory) (a j : Nat) (hj : j < l.length), m.Wf → (m.writeBytes a l).read (a + j) = l[j] := by
  induction l with
  | nil => intro m a j hj; simp at hj
  | cons c l ih =>
    intro m a j hj hm
    cases j with
    | zero =>
      rw [Memory.writeBytes, Memory.read_writeBytes_other _ _ _ _ (by omega)]
      exact Memory.read_write_same m a c hm
    | succ j =>
      have := ih (m.write a c) (a + 1) j (by simpa using hj) (Memory.wf_write m a c hm)
      rw [Memory.writeBytes, show a + (j + 1) = a + 1 + j by omega, this]
      rfl

@[simp] theorem Memory.length_readBytes (m : Memory) : ∀ (n a : Nat), (m.readBytes a n).length = n := by
  intro n
  induction n with
  | zero => exact fun _ => rfl
  | succ n ih => exact fun a => by simp [Memory.readBytes, ih]

/-- Byte `j` of a string read at `a` is the byte at `a + j`. -/
theorem Memory.getElem_readBytes (m : Memory) :
    ∀ (n a j : Nat) (hj : j < (m.readBytes a n).length), (m.readBytes a n)[j] = m.read (a + j) := by
  intro n
  induction n with
  | zero => intro a j hj; simp [Memory.readBytes] at hj
  | succ n ih =>
    intro a j hj
    cases j with
    | zero => rfl
    | succ j =>
      simp only [Memory.readBytes, List.getElem_cons_succ]
      rw [ih (a + 1) j, show a + 1 + j = a + (j + 1) by omega]

/-- Two memories that agree on `n` bytes read the same string there. -/
theorem Memory.readBytes_congr (m m' : Memory) :
    ∀ (n a a' : Nat), (∀ j < n, m.read (a + j) = m'.read (a' + j)) → m.readBytes a n = m'.readBytes a' n := by
  intro n
  induction n with
  | zero => exact fun _ _ _ => rfl
  | succ n ih =>
    intro a a' h
    simp only [Memory.readBytes]
    rw [ih (a + 1) (a' + 1) fun j hj => by
      have := h (j + 1) (by omega)
      rwa [show a + (j + 1) = a + 1 + j by omega, show a' + (j + 1) = a' + 1 + j by omega] at this]
    have := h 0 (by omega)
    simp only [Nat.add_zero] at this
    rw [this]

/-- Reading back a written string. -/
theorem Memory.readBytes_writeBytes (l : List Byte) (m : Memory) (a : Nat) (h : m.Wf) :
    (m.writeBytes a l).readBytes a l.length = l := by
  refine List.ext_getElem (by simp) fun j h1 h2 => ?_
  rw [Memory.getElem_readBytes, Memory.read_writeBytes_same l m a j h2 h]

end Sys2Proof.Machine
end

