-- ==== Sys2Proof/Laws/Numbers.lean ====
section
/-! SUPPORT. The laws of the notation: bit lengths, remainders, big-endian strings and minimal magnitudes. -/

namespace Sys2Proof.Machine

theorem bitLength_zero : bitLength 0 = 0 := rfl

/-- A number is below the power of two of its bit length. -/
theorem lt_two_pow_bitLength (v : Nat) : v < 2 ^ bitLength v := by
  unfold bitLength
  split
  · subst_vars; simp
  · exact Nat.lt_log2_self

/-- The top bit of a positive number. -/
theorem two_pow_le_of_pos (v : Nat) (h : v ≠ 0) : 2 ^ (bitLength v - 1) ≤ v := by
  simp only [bitLength, if_neg h, Nat.add_sub_cancel]
  exact Nat.log2_self_le h

/-- The bit length is the least exponent of a power of two above the number. -/
theorem bitLength_le (v k : Nat) (h : v < 2 ^ k) : bitLength v ≤ k := by
  unfold bitLength
  split
  · omega
  · rename_i hv
    exact (Nat.log2_lt hv).2 h

/-- `bitLength` is the number of binary digits. -/
theorem bitLength_eq_size (v : Nat) : bitLength v = v.size := by
  refine le_antisymm (bitLength_le _ _ (Nat.lt_size_self v)) (Nat.size_le.2 (lt_two_pow_bitLength v))

theorem intMod_lt (x : Int) (m : Nat) (h : m ≠ 0) : intMod x m < m := by
  have h1 := Int.emod_lt_of_pos x (by omega : (0 : Int) < m)
  have h2 := Int.emod_nonneg x (by omega : (m : Int) ≠ 0)
  unfold intMod
  omega

theorem intMod_cast (x : Int) (m : Nat) (h : m ≠ 0) : (intMod x m : Int) = x % m :=
  Int.toNat_of_nonneg (Int.emod_nonneg x (by omega))

theorem intMod_natCast (x m : Nat) : intMod (x : Int) m = x % m := by
  unfold intMod
  rw [← Int.natCast_emod, Int.toNat_natCast]

/-- The accumulator of `beValue` from any start. -/
theorem beValue_foldl (l : List Byte) :
    ∀ acc : Nat, l.foldl (fun acc b => acc * 256 + b.toNat) acc = acc * 256 ^ l.length + beValue l := by
  induction l with
  | nil => intro acc; simp [beValue]
  | cons b l ih =>
    intro acc
    simp only [List.foldl_cons, List.length_cons, beValue]
    rw [ih, ih]
    ring

@[simp] theorem beValue_nil : beValue [] = 0 := rfl

theorem beValue_cons (b : Byte) (l : List Byte) : beValue (b :: l) = b.toNat * 256 ^ l.length + beValue l := by
  have := beValue_foldl l (0 * 256 + b.toNat)
  simpa [beValue] using this

theorem beValue_lt (l : List Byte) : beValue l < 256 ^ l.length := by
  induction l with
  | nil => simp
  | cons b l ih =>
    rw [beValue_cons, List.length_cons, pow_succ]
    have hb : b.toNat < 256 := b.isLt
    nlinarith [Nat.mul_le_mul_right (256 ^ l.length) (Nat.le_of_lt_succ hb)]

@[simp] theorem length_beBytes (k v : Nat) : (beBytes k v).length = k := by
  induction k with
  | zero => rfl
  | succ k ih => simp [beBytes, ih]

/-- The value of the `k` low-order bytes of `v`. -/
theorem beValue_beBytes (k v : Nat) : beValue (beBytes k v) = v % 256 ^ k := by
  induction k with
  | zero => simp [beBytes, Nat.mod_one]
  | succ k ih =>
    have h : v % (256 ^ k * 256) = v % 256 ^ k + 256 ^ k * (v / 256 ^ k % 256) := Nat.mod_mul
    rw [beBytes, beValue_cons, length_beBytes, ih, BitVec.toNat_ofNat,
      show (2 : Nat) ^ 8 = 256 by norm_num, pow_succ, h, Nat.mul_comm, Nat.add_comm]

/-- A string is the low-order bytes of its value. -/
theorem beBytes_beValue (l : List Byte) : beBytes l.length (beValue l) = l := by
  suffices h : ∀ (l : List Byte) (hi : Nat), beBytes l.length (hi * 256 ^ l.length + beValue l) = l by
    simpa using h l 0
  intro l
  induction l with
  | nil => intro hi; rfl
  | cons b l ih =>
    intro hi
    rw [beValue_cons, List.length_cons, beBytes]
    have hlt := beValue_lt l
    have hpos : 0 < 256 ^ l.length := by positivity
    have h1 : hi * 256 ^ (l.length + 1) + (b.toNat * 256 ^ l.length + beValue l) =
        (hi * 256 + b.toNat) * 256 ^ l.length + beValue l := by ring
    rw [h1, ih, Nat.mul_comm _ (256 ^ l.length), Nat.mul_add_div hpos, Nat.div_eq_of_lt hlt, Nat.add_zero]
    congr 1
    apply BitVec.eq_of_toNat_eq
    have hb : b.toNat < 256 := b.isLt
    rw [BitVec.toNat_ofNat]
    omega

/-- A word below `2^31` is its own two's-complement value (R9). -/
theorem sext32_of_lt (n : Nat) (h : n < 2 ^ 31) : sext32 n = n := if_pos h

/-- A word of `2^31` or more is negative (R9). -/
theorem sext32_neg (n : Nat) (h : ¬n < 2 ^ 31) (hn : n < 2 ^ 32) : sext32 n < 0 := by
  rw [sext32, if_neg h]
  omega

theorem length_mag (v : Nat) : (mag v).length = magLength v := length_beBytes _ _

theorem magLength_pos (v : Nat) : 0 < magLength v := by
  unfold magLength; omega

theorem lt_magLength (v : Nat) : v < 256 ^ magLength v := by
  have h := lt_two_pow_bitLength v
  refine lt_of_lt_of_le h ?_
  rw [show (256 : Nat) = 2 ^ 8 by norm_num, ← pow_mul]
  exact Nat.pow_le_pow_right (by norm_num) (by unfold magLength; omega)

/-- `BE(MAG(v)) = v` (R10). -/
theorem beValue_mag (v : Nat) : beValue (mag v) = v := by
  rw [mag, beValue_beBytes, Nat.mod_eq_of_lt (lt_magLength v)]

/-- A magnitude of a value below `2^w` has at most `w/8` bytes, when `w` is a positive number of bytes. -/
theorem magLength_le (v w : Nat) (h : v < 2 ^ w) (hw : w % 8 = 0) (hp : 0 < w) : magLength v ≤ w / 8 := by
  have := bitLength_le v w h
  unfold magLength
  omega

end Sys2Proof.Machine
end

