-- ==== Sys2Proof/Laws/State.lean ====
section
/-! SUPPORT. The small lemmas of the state's updates: one per field per update, true by unfolding, so that no
proof unfolds a record update. -/

namespace Sys2Proof.Machine

variable (s : State)

/-! ### A write of a big register -/

@[simp] theorem State.setBig_cfg (i : BReg) (v : Nat) : (s.setBig i v).cfg = s.cfg := rfl
@[simp] theorem State.setBig_regs (i : BReg) (v : Nat) : (s.setBig i v).regs = s.regs.set i.toNat v i.isLt := rfl
@[simp] theorem State.setBig_pinf (i : BReg) (v : Nat) : (s.setBig i v).pinf = s.pinf := rfl
@[simp] theorem State.setBig_cmd (i : BReg) (v : Nat) : (s.setBig i v).cmd = s.cmd := rfl
@[simp] theorem State.setBig_busy (i : BReg) (v : Nat) : (s.setBig i v).busy = s.busy := rfl
@[simp] theorem State.setBig_done (i : BReg) (v : Nat) : (s.setBig i v).done = s.done := rfl
@[simp] theorem State.setBig_err (i : BReg) (v : Nat) : (s.setBig i v).err = s.err := rfl
@[simp] theorem State.setBig_hostErr (i : BReg) (v : Nat) : (s.setBig i v).hostErr = s.hostErr := rfl
@[simp] theorem State.setBig_cause (i : BReg) (v : Nat) : (s.setBig i v).cause = s.cause := rfl
@[simp] theorem State.setBig_errPos (i : BReg) (v : Nat) : (s.setBig i v).errPos = s.errPos := rfl
@[simp] theorem State.setBig_ieDone (i : BReg) (v : Nat) : (s.setBig i v).ieDone = s.ieDone := rfl
@[simp] theorem State.setBig_ieErr (i : BReg) (v : Nat) : (s.setBig i v).ieErr = s.ieErr := rfl
@[simp] theorem State.setBig_iptr (i : BReg) (v : Nat) : (s.setBig i v).iptr = s.iptr := rfl
@[simp] theorem State.setBig_ilen (i : BReg) (v : Nat) : (s.setBig i v).ilen = s.ilen := rfl
@[simp] theorem State.setBig_optr (i : BReg) (v : Nat) : (s.setBig i v).optr = s.optr := rfl
@[simp] theorem State.setBig_cnt (i : BReg) (v : Nat) : (s.setBig i v).cnt = s.cnt := rfl
@[simp] theorem State.setBig_ibuf (i : BReg) (v : Nat) : (s.setBig i v).ibuf = s.ibuf := rfl
@[simp] theorem State.setBig_obuf (i : BReg) (v : Nat) : (s.setBig i v).obuf = s.obuf := rfl
@[simp] theorem State.setBig_pending (i : BReg) (v : Nat) : (s.setBig i v).pending = s.pending := rfl
@[simp] theorem State.setBig_returned (i : BReg) (v : Nat) : (s.setBig i v).returned = s.returned := rfl

/-! ### A write of one infinity flag -/

@[simp] theorem State.setPinfBit_cfg (i : PReg) (v : Bool) : (s.setPinfBit i v).cfg = s.cfg := rfl
@[simp] theorem State.setPinfBit_regs (i : PReg) (v : Bool) : (s.setPinfBit i v).regs = s.regs := rfl
@[simp] theorem State.setPinfBit_pinf (i : PReg) (v : Bool) : (s.setPinfBit i v).pinf = if v then s.pinf ||| 1#8 <<< i.toNat else s.pinf &&& ~~~(1#8 <<< i.toNat) := rfl
@[simp] theorem State.setPinfBit_cmd (i : PReg) (v : Bool) : (s.setPinfBit i v).cmd = s.cmd := rfl
@[simp] theorem State.setPinfBit_busy (i : PReg) (v : Bool) : (s.setPinfBit i v).busy = s.busy := rfl
@[simp] theorem State.setPinfBit_done (i : PReg) (v : Bool) : (s.setPinfBit i v).done = s.done := rfl
@[simp] theorem State.setPinfBit_err (i : PReg) (v : Bool) : (s.setPinfBit i v).err = s.err := rfl
@[simp] theorem State.setPinfBit_hostErr (i : PReg) (v : Bool) : (s.setPinfBit i v).hostErr = s.hostErr := rfl
@[simp] theorem State.setPinfBit_cause (i : PReg) (v : Bool) : (s.setPinfBit i v).cause = s.cause := rfl
@[simp] theorem State.setPinfBit_errPos (i : PReg) (v : Bool) : (s.setPinfBit i v).errPos = s.errPos := rfl
@[simp] theorem State.setPinfBit_ieDone (i : PReg) (v : Bool) : (s.setPinfBit i v).ieDone = s.ieDone := rfl
@[simp] theorem State.setPinfBit_ieErr (i : PReg) (v : Bool) : (s.setPinfBit i v).ieErr = s.ieErr := rfl
@[simp] theorem State.setPinfBit_iptr (i : PReg) (v : Bool) : (s.setPinfBit i v).iptr = s.iptr := rfl
@[simp] theorem State.setPinfBit_ilen (i : PReg) (v : Bool) : (s.setPinfBit i v).ilen = s.ilen := rfl
@[simp] theorem State.setPinfBit_optr (i : PReg) (v : Bool) : (s.setPinfBit i v).optr = s.optr := rfl
@[simp] theorem State.setPinfBit_cnt (i : PReg) (v : Bool) : (s.setPinfBit i v).cnt = s.cnt := rfl
@[simp] theorem State.setPinfBit_ibuf (i : PReg) (v : Bool) : (s.setPinfBit i v).ibuf = s.ibuf := rfl
@[simp] theorem State.setPinfBit_obuf (i : PReg) (v : Bool) : (s.setPinfBit i v).obuf = s.obuf := rfl
@[simp] theorem State.setPinfBit_pending (i : PReg) (v : Bool) : (s.setPinfBit i v).pending = s.pending := rfl
@[simp] theorem State.setPinfBit_returned (i : PReg) (v : Bool) : (s.setPinfBit i v).returned = s.returned := rfl

/-! ### Fault entry -/

@[simp] theorem State.faultEntry_cfg (f : CoreFault) : (s.faultEntry f).cfg = s.cfg := rfl
@[simp] theorem State.faultEntry_regs (f : CoreFault) : (s.faultEntry f).regs = s.regs := rfl
@[simp] theorem State.faultEntry_pinf (f : CoreFault) : (s.faultEntry f).pinf = s.pinf := rfl
@[simp] theorem State.faultEntry_cmd (f : CoreFault) : (s.faultEntry f).cmd = s.cmd := rfl
@[simp] theorem State.faultEntry_busy (f : CoreFault) : (s.faultEntry f).busy = false := rfl
@[simp] theorem State.faultEntry_done (f : CoreFault) : (s.faultEntry f).done = false := rfl
@[simp] theorem State.faultEntry_err (f : CoreFault) : (s.faultEntry f).err = true := rfl
@[simp] theorem State.faultEntry_hostErr (f : CoreFault) : (s.faultEntry f).hostErr = s.hostErr := rfl
@[simp] theorem State.faultEntry_cause (f : CoreFault) : (s.faultEntry f).cause = f.code := rfl
@[simp] theorem State.faultEntry_errPos (f : CoreFault) : (s.faultEntry f).errPos = f.errPos := rfl
@[simp] theorem State.faultEntry_ieDone (f : CoreFault) : (s.faultEntry f).ieDone = s.ieDone := rfl
@[simp] theorem State.faultEntry_ieErr (f : CoreFault) : (s.faultEntry f).ieErr = s.ieErr := rfl
@[simp] theorem State.faultEntry_iptr (f : CoreFault) : (s.faultEntry f).iptr = s.iptr := rfl
@[simp] theorem State.faultEntry_ilen (f : CoreFault) : (s.faultEntry f).ilen = s.ilen := rfl
@[simp] theorem State.faultEntry_optr (f : CoreFault) : (s.faultEntry f).optr = s.optr := rfl
@[simp] theorem State.faultEntry_cnt (f : CoreFault) : (s.faultEntry f).cnt = s.cnt := rfl
@[simp] theorem State.faultEntry_ibuf (f : CoreFault) : (s.faultEntry f).ibuf = s.ibuf := rfl
@[simp] theorem State.faultEntry_obuf (f : CoreFault) : (s.faultEntry f).obuf = s.obuf := rfl
@[simp] theorem State.faultEntry_pending (f : CoreFault) : (s.faultEntry f).pending = s.pending := rfl
@[simp] theorem State.faultEntry_returned (f : CoreFault) : (s.faultEntry f).returned = s.returned := rfl

/-! ### The end of a command without a fault -/

@[simp] theorem State.succeed_cfg : s.succeed.cfg = s.cfg := rfl
@[simp] theorem State.succeed_regs : s.succeed.regs = s.regs := rfl
@[simp] theorem State.succeed_pinf : s.succeed.pinf = s.pinf := rfl
@[simp] theorem State.succeed_cmd : s.succeed.cmd = s.cmd := rfl
@[simp] theorem State.succeed_busy : s.succeed.busy = false := rfl
@[simp] theorem State.succeed_done : s.succeed.done = true := rfl
@[simp] theorem State.succeed_err : s.succeed.err = s.err := rfl
@[simp] theorem State.succeed_hostErr : s.succeed.hostErr = s.hostErr := rfl
@[simp] theorem State.succeed_cause : s.succeed.cause = s.cause := rfl
@[simp] theorem State.succeed_errPos : s.succeed.errPos = s.errPos := rfl
@[simp] theorem State.succeed_ieDone : s.succeed.ieDone = s.ieDone := rfl
@[simp] theorem State.succeed_ieErr : s.succeed.ieErr = s.ieErr := rfl
@[simp] theorem State.succeed_iptr : s.succeed.iptr = s.iptr := rfl
@[simp] theorem State.succeed_ilen : s.succeed.ilen = s.ilen := rfl
@[simp] theorem State.succeed_optr : s.succeed.optr = s.optr := rfl
@[simp] theorem State.succeed_cnt : s.succeed.cnt = s.cnt := rfl
@[simp] theorem State.succeed_ibuf : s.succeed.ibuf = s.ibuf := rfl
@[simp] theorem State.succeed_obuf : s.succeed.obuf = s.obuf := rfl
@[simp] theorem State.succeed_pending : s.succeed.pending = s.pending := rfl
@[simp] theorem State.succeed_returned : s.succeed.returned = s.returned := rfl

/-! ### Acceptance of a word -/

@[simp] theorem State.acceptCommand_cfg (w : Word) : (s.acceptCommand w).cfg = s.cfg := rfl
@[simp] theorem State.acceptCommand_regs (w : Word) : (s.acceptCommand w).regs = s.regs := rfl
@[simp] theorem State.acceptCommand_pinf (w : Word) : (s.acceptCommand w).pinf = s.pinf := rfl
@[simp] theorem State.acceptCommand_cmd (w : Word) : (s.acceptCommand w).cmd = w := rfl
@[simp] theorem State.acceptCommand_busy (w : Word) : (s.acceptCommand w).busy = true := rfl
@[simp] theorem State.acceptCommand_done (w : Word) : (s.acceptCommand w).done = false := rfl
@[simp] theorem State.acceptCommand_err (w : Word) : (s.acceptCommand w).err = s.err := rfl
@[simp] theorem State.acceptCommand_hostErr (w : Word) : (s.acceptCommand w).hostErr = s.hostErr := rfl
@[simp] theorem State.acceptCommand_cause (w : Word) : (s.acceptCommand w).cause = s.cause := rfl
@[simp] theorem State.acceptCommand_errPos (w : Word) : (s.acceptCommand w).errPos = s.errPos := rfl
@[simp] theorem State.acceptCommand_ieDone (w : Word) : (s.acceptCommand w).ieDone = s.ieDone := rfl
@[simp] theorem State.acceptCommand_ieErr (w : Word) : (s.acceptCommand w).ieErr = s.ieErr := rfl
@[simp] theorem State.acceptCommand_iptr (w : Word) : (s.acceptCommand w).iptr = s.iptr := rfl
@[simp] theorem State.acceptCommand_ilen (w : Word) : (s.acceptCommand w).ilen = s.ilen := rfl
@[simp] theorem State.acceptCommand_optr (w : Word) : (s.acceptCommand w).optr = s.optr := rfl
@[simp] theorem State.acceptCommand_cnt (w : Word) : (s.acceptCommand w).cnt = s.cnt := rfl
@[simp] theorem State.acceptCommand_ibuf (w : Word) : (s.acceptCommand w).ibuf = s.ibuf := rfl
@[simp] theorem State.acceptCommand_obuf (w : Word) : (s.acceptCommand w).obuf = s.obuf := rfl
@[simp] theorem State.acceptCommand_pending (w : Word) : (s.acceptCommand w).pending = s.pending := rfl
@[simp] theorem State.acceptCommand_returned (w : Word) : (s.acceptCommand w).returned = s.returned := rfl

/-! ### A word placed in CMD -/

@[simp] theorem State.loadCommand_cfg (w : Word) : (s.loadCommand w).cfg = s.cfg := rfl
@[simp] theorem State.loadCommand_regs (w : Word) : (s.loadCommand w).regs = s.regs := rfl
@[simp] theorem State.loadCommand_pinf (w : Word) : (s.loadCommand w).pinf = s.pinf := rfl
@[simp] theorem State.loadCommand_cmd (w : Word) : (s.loadCommand w).cmd = w := rfl
@[simp] theorem State.loadCommand_busy (w : Word) : (s.loadCommand w).busy = true := rfl
@[simp] theorem State.loadCommand_done (w : Word) : (s.loadCommand w).done = false := rfl
@[simp] theorem State.loadCommand_err (w : Word) : (s.loadCommand w).err = false := rfl
@[simp] theorem State.loadCommand_hostErr (w : Word) : (s.loadCommand w).hostErr = s.hostErr := rfl
@[simp] theorem State.loadCommand_cause (w : Word) : (s.loadCommand w).cause = 0 := rfl
@[simp] theorem State.loadCommand_errPos (w : Word) : (s.loadCommand w).errPos = 0 := rfl
@[simp] theorem State.loadCommand_ieDone (w : Word) : (s.loadCommand w).ieDone = s.ieDone := rfl
@[simp] theorem State.loadCommand_ieErr (w : Word) : (s.loadCommand w).ieErr = s.ieErr := rfl
@[simp] theorem State.loadCommand_iptr (w : Word) : (s.loadCommand w).iptr = s.iptr := rfl
@[simp] theorem State.loadCommand_ilen (w : Word) : (s.loadCommand w).ilen = s.ilen := rfl
@[simp] theorem State.loadCommand_optr (w : Word) : (s.loadCommand w).optr = s.optr := rfl
@[simp] theorem State.loadCommand_cnt (w : Word) : (s.loadCommand w).cnt = s.cnt := rfl
@[simp] theorem State.loadCommand_ibuf (w : Word) : (s.loadCommand w).ibuf = s.ibuf := rfl
@[simp] theorem State.loadCommand_obuf (w : Word) : (s.loadCommand w).obuf = s.obuf := rfl
@[simp] theorem State.loadCommand_pending (w : Word) : (s.loadCommand w).pending = .sequencer :: s.pending := rfl
@[simp] theorem State.loadCommand_returned (w : Word) : (s.loadCommand w).returned = s.returned := rfl

/-! ### The pointer writes of a load -/

@[simp] theorem State.consume_cfg (c : Nat) : (s.consume c).cfg = s.cfg := rfl
@[simp] theorem State.consume_regs (c : Nat) : (s.consume c).regs = s.regs := rfl
@[simp] theorem State.consume_pinf (c : Nat) : (s.consume c).pinf = s.pinf := rfl
@[simp] theorem State.consume_cmd (c : Nat) : (s.consume c).cmd = s.cmd := rfl
@[simp] theorem State.consume_busy (c : Nat) : (s.consume c).busy = s.busy := rfl
@[simp] theorem State.consume_done (c : Nat) : (s.consume c).done = s.done := rfl
@[simp] theorem State.consume_err (c : Nat) : (s.consume c).err = s.err := rfl
@[simp] theorem State.consume_hostErr (c : Nat) : (s.consume c).hostErr = s.hostErr := rfl
@[simp] theorem State.consume_cause (c : Nat) : (s.consume c).cause = s.cause := rfl
@[simp] theorem State.consume_errPos (c : Nat) : (s.consume c).errPos = s.errPos := rfl
@[simp] theorem State.consume_ieDone (c : Nat) : (s.consume c).ieDone = s.ieDone := rfl
@[simp] theorem State.consume_ieErr (c : Nat) : (s.consume c).ieErr = s.ieErr := rfl
@[simp] theorem State.consume_iptr (c : Nat) : (s.consume c).iptr = s.iptr + BitVec.ofNat 32 c := rfl
@[simp] theorem State.consume_ilen (c : Nat) : (s.consume c).ilen = s.ilen := rfl
@[simp] theorem State.consume_optr (c : Nat) : (s.consume c).optr = s.optr := rfl
@[simp] theorem State.consume_cnt (c : Nat) : (s.consume c).cnt = BitVec.ofNat 32 c := rfl
@[simp] theorem State.consume_ibuf (c : Nat) : (s.consume c).ibuf = s.ibuf := rfl
@[simp] theorem State.consume_obuf (c : Nat) : (s.consume c).obuf = s.obuf := rfl
@[simp] theorem State.consume_pending (c : Nat) : (s.consume c).pending = s.pending := rfl
@[simp] theorem State.consume_returned (c : Nat) : (s.consume c).returned = s.returned := rfl

/-! ### The writes of a store -/

@[simp] theorem State.emit_cfg (l : List Byte) : (s.emit l).cfg = s.cfg := rfl
@[simp] theorem State.emit_regs (l : List Byte) : (s.emit l).regs = s.regs := rfl
@[simp] theorem State.emit_pinf (l : List Byte) : (s.emit l).pinf = s.pinf := rfl
@[simp] theorem State.emit_cmd (l : List Byte) : (s.emit l).cmd = s.cmd := rfl
@[simp] theorem State.emit_busy (l : List Byte) : (s.emit l).busy = s.busy := rfl
@[simp] theorem State.emit_done (l : List Byte) : (s.emit l).done = s.done := rfl
@[simp] theorem State.emit_err (l : List Byte) : (s.emit l).err = s.err := rfl
@[simp] theorem State.emit_hostErr (l : List Byte) : (s.emit l).hostErr = s.hostErr := rfl
@[simp] theorem State.emit_cause (l : List Byte) : (s.emit l).cause = s.cause := rfl
@[simp] theorem State.emit_errPos (l : List Byte) : (s.emit l).errPos = s.errPos := rfl
@[simp] theorem State.emit_ieDone (l : List Byte) : (s.emit l).ieDone = s.ieDone := rfl
@[simp] theorem State.emit_ieErr (l : List Byte) : (s.emit l).ieErr = s.ieErr := rfl
@[simp] theorem State.emit_iptr (l : List Byte) : (s.emit l).iptr = s.iptr := rfl
@[simp] theorem State.emit_ilen (l : List Byte) : (s.emit l).ilen = s.ilen := rfl
@[simp] theorem State.emit_optr (l : List Byte) : (s.emit l).optr = s.optr + BitVec.ofNat 32 l.length := rfl
@[simp] theorem State.emit_cnt (l : List Byte) : (s.emit l).cnt = BitVec.ofNat 32 l.length := rfl
@[simp] theorem State.emit_ibuf (l : List Byte) : (s.emit l).ibuf = s.ibuf := rfl
@[simp] theorem State.emit_obuf (l : List Byte) : (s.emit l).obuf = s.obuf.writeBytes s.optr.toNat l := rfl
@[simp] theorem State.emit_pending (l : List Byte) : (s.emit l).pending = s.pending := rfl
@[simp] theorem State.emit_returned (l : List Byte) : (s.emit l).returned = s.returned := rfl

/-! ### A refused access -/

@[simp] theorem State.refuse_cfg : s.refuse.cfg = s.cfg := rfl
@[simp] theorem State.refuse_regs : s.refuse.regs = s.regs := rfl
@[simp] theorem State.refuse_pinf : s.refuse.pinf = s.pinf := rfl
@[simp] theorem State.refuse_cmd : s.refuse.cmd = s.cmd := rfl
@[simp] theorem State.refuse_busy : s.refuse.busy = s.busy := rfl
@[simp] theorem State.refuse_done : s.refuse.done = s.done := rfl
@[simp] theorem State.refuse_err : s.refuse.err = s.err := rfl
@[simp] theorem State.refuse_hostErr : s.refuse.hostErr = true := rfl
@[simp] theorem State.refuse_cause : s.refuse.cause = s.cause := rfl
@[simp] theorem State.refuse_errPos : s.refuse.errPos = s.errPos := rfl
@[simp] theorem State.refuse_ieDone : s.refuse.ieDone = s.ieDone := rfl
@[simp] theorem State.refuse_ieErr : s.refuse.ieErr = s.ieErr := rfl
@[simp] theorem State.refuse_iptr : s.refuse.iptr = s.iptr := rfl
@[simp] theorem State.refuse_ilen : s.refuse.ilen = s.ilen := rfl
@[simp] theorem State.refuse_optr : s.refuse.optr = s.optr := rfl
@[simp] theorem State.refuse_cnt : s.refuse.cnt = s.cnt := rfl
@[simp] theorem State.refuse_ibuf : s.refuse.ibuf = s.ibuf := rfl
@[simp] theorem State.refuse_obuf : s.refuse.obuf = s.obuf := rfl
@[simp] theorem State.refuse_pending : s.refuse.pending = s.pending := rfl
@[simp] theorem State.refuse_returned : s.refuse.returned = s.returned := rfl

/-! ### A word returned to the host -/

@[simp] theorem State.answer_cfg (w : Word) : (s.answer w).cfg = s.cfg := rfl
@[simp] theorem State.answer_regs (w : Word) : (s.answer w).regs = s.regs := rfl
@[simp] theorem State.answer_pinf (w : Word) : (s.answer w).pinf = s.pinf := rfl
@[simp] theorem State.answer_cmd (w : Word) : (s.answer w).cmd = s.cmd := rfl
@[simp] theorem State.answer_busy (w : Word) : (s.answer w).busy = s.busy := rfl
@[simp] theorem State.answer_done (w : Word) : (s.answer w).done = s.done := rfl
@[simp] theorem State.answer_err (w : Word) : (s.answer w).err = s.err := rfl
@[simp] theorem State.answer_hostErr (w : Word) : (s.answer w).hostErr = s.hostErr := rfl
@[simp] theorem State.answer_cause (w : Word) : (s.answer w).cause = s.cause := rfl
@[simp] theorem State.answer_errPos (w : Word) : (s.answer w).errPos = s.errPos := rfl
@[simp] theorem State.answer_ieDone (w : Word) : (s.answer w).ieDone = s.ieDone := rfl
@[simp] theorem State.answer_ieErr (w : Word) : (s.answer w).ieErr = s.ieErr := rfl
@[simp] theorem State.answer_iptr (w : Word) : (s.answer w).iptr = s.iptr := rfl
@[simp] theorem State.answer_ilen (w : Word) : (s.answer w).ilen = s.ilen := rfl
@[simp] theorem State.answer_optr (w : Word) : (s.answer w).optr = s.optr := rfl
@[simp] theorem State.answer_cnt (w : Word) : (s.answer w).cnt = s.cnt := rfl
@[simp] theorem State.answer_ibuf (w : Word) : (s.answer w).ibuf = s.ibuf := rfl
@[simp] theorem State.answer_obuf (w : Word) : (s.answer w).obuf = s.obuf := rfl
@[simp] theorem State.answer_pending (w : Word) : (s.answer w).pending = s.pending := rfl
@[simp] theorem State.answer_returned (w : Word) : (s.answer w).returned = w :: s.returned := rfl

/-! ### Reset -/

@[simp] theorem State.performReset_cfg : s.performReset.cfg = s.cfg := rfl
@[simp] theorem State.performReset_regs : s.performReset.regs = Vector.replicate 16 0 := rfl
@[simp] theorem State.performReset_pinf : s.performReset.pinf = 0 := rfl
@[simp] theorem State.performReset_cmd : s.performReset.cmd = 0 := rfl
@[simp] theorem State.performReset_busy : s.performReset.busy = false := rfl
@[simp] theorem State.performReset_done : s.performReset.done = false := rfl
@[simp] theorem State.performReset_err : s.performReset.err = false := rfl
@[simp] theorem State.performReset_hostErr : s.performReset.hostErr = false := rfl
@[simp] theorem State.performReset_cause : s.performReset.cause = 0 := rfl
@[simp] theorem State.performReset_errPos : s.performReset.errPos = 0 := rfl
@[simp] theorem State.performReset_ieDone : s.performReset.ieDone = false := rfl
@[simp] theorem State.performReset_ieErr : s.performReset.ieErr = false := rfl
@[simp] theorem State.performReset_iptr : s.performReset.iptr = 0 := rfl
@[simp] theorem State.performReset_ilen : s.performReset.ilen = 0 := rfl
@[simp] theorem State.performReset_optr : s.performReset.optr = 0 := rfl
@[simp] theorem State.performReset_cnt : s.performReset.cnt = 0 := rfl
@[simp] theorem State.performReset_ibuf : s.performReset.ibuf = [] := rfl
@[simp] theorem State.performReset_obuf : s.performReset.obuf = [] := rfl
@[simp] theorem State.performReset_pending : s.performReset.pending = s.pending := rfl
@[simp] theorem State.performReset_returned : s.performReset.returned = s.returned := rfl

/-! ### A write of a point register -/

@[simp] theorem State.setPoint_cfg (i : PReg) (P : Point) : (s.setPoint i P).cfg = s.cfg := by cases P <;> rfl
@[simp] theorem State.setPoint_cmd (i : PReg) (P : Point) : (s.setPoint i P).cmd = s.cmd := by cases P <;> rfl
@[simp] theorem State.setPoint_busy (i : PReg) (P : Point) : (s.setPoint i P).busy = s.busy := by cases P <;> rfl
@[simp] theorem State.setPoint_done (i : PReg) (P : Point) : (s.setPoint i P).done = s.done := by cases P <;> rfl
@[simp] theorem State.setPoint_err (i : PReg) (P : Point) : (s.setPoint i P).err = s.err := by cases P <;> rfl
@[simp] theorem State.setPoint_hostErr (i : PReg) (P : Point) : (s.setPoint i P).hostErr = s.hostErr := by cases P <;> rfl
@[simp] theorem State.setPoint_cause (i : PReg) (P : Point) : (s.setPoint i P).cause = s.cause := by cases P <;> rfl
@[simp] theorem State.setPoint_errPos (i : PReg) (P : Point) : (s.setPoint i P).errPos = s.errPos := by cases P <;> rfl
@[simp] theorem State.setPoint_ieDone (i : PReg) (P : Point) : (s.setPoint i P).ieDone = s.ieDone := by cases P <;> rfl
@[simp] theorem State.setPoint_ieErr (i : PReg) (P : Point) : (s.setPoint i P).ieErr = s.ieErr := by cases P <;> rfl
@[simp] theorem State.setPoint_iptr (i : PReg) (P : Point) : (s.setPoint i P).iptr = s.iptr := by cases P <;> rfl
@[simp] theorem State.setPoint_ilen (i : PReg) (P : Point) : (s.setPoint i P).ilen = s.ilen := by cases P <;> rfl
@[simp] theorem State.setPoint_optr (i : PReg) (P : Point) : (s.setPoint i P).optr = s.optr := by cases P <;> rfl
@[simp] theorem State.setPoint_cnt (i : PReg) (P : Point) : (s.setPoint i P).cnt = s.cnt := by cases P <;> rfl
@[simp] theorem State.setPoint_ibuf (i : PReg) (P : Point) : (s.setPoint i P).ibuf = s.ibuf := by cases P <;> rfl
@[simp] theorem State.setPoint_obuf (i : PReg) (P : Point) : (s.setPoint i P).obuf = s.obuf := by cases P <;> rfl
@[simp] theorem State.setPoint_pending (i : PReg) (P : Point) : (s.setPoint i P).pending = s.pending := by cases P <;> rfl
@[simp] theorem State.setPoint_returned (i : PReg) (P : Point) : (s.setPoint i P).returned = s.returned := by cases P <;> rfl

/-! ### The reset state -/

@[simp] theorem State.resetWith_cfg (c : Config) : (State.resetWith c).cfg = c := rfl
@[simp] theorem State.resetWith_regs (c : Config) : (State.resetWith c).regs = Vector.replicate 16 0 := rfl
@[simp] theorem State.resetWith_pinf (c : Config) : (State.resetWith c).pinf = 0 := rfl
@[simp] theorem State.resetWith_cmd (c : Config) : (State.resetWith c).cmd = 0 := rfl
@[simp] theorem State.resetWith_busy (c : Config) : (State.resetWith c).busy = false := rfl
@[simp] theorem State.resetWith_done (c : Config) : (State.resetWith c).done = false := rfl
@[simp] theorem State.resetWith_err (c : Config) : (State.resetWith c).err = false := rfl
@[simp] theorem State.resetWith_hostErr (c : Config) : (State.resetWith c).hostErr = false := rfl
@[simp] theorem State.resetWith_cause (c : Config) : (State.resetWith c).cause = 0 := rfl
@[simp] theorem State.resetWith_errPos (c : Config) : (State.resetWith c).errPos = 0 := rfl
@[simp] theorem State.resetWith_ieDone (c : Config) : (State.resetWith c).ieDone = false := rfl
@[simp] theorem State.resetWith_ieErr (c : Config) : (State.resetWith c).ieErr = false := rfl
@[simp] theorem State.resetWith_iptr (c : Config) : (State.resetWith c).iptr = 0 := rfl
@[simp] theorem State.resetWith_ilen (c : Config) : (State.resetWith c).ilen = 0 := rfl
@[simp] theorem State.resetWith_optr (c : Config) : (State.resetWith c).optr = 0 := rfl
@[simp] theorem State.resetWith_cnt (c : Config) : (State.resetWith c).cnt = 0 := rfl
@[simp] theorem State.resetWith_ibuf (c : Config) : (State.resetWith c).ibuf = [] := rfl
@[simp] theorem State.resetWith_obuf (c : Config) : (State.resetWith c).obuf = [] := rfl
@[simp] theorem State.resetWith_pending (c : Config) : (State.resetWith c).pending = [] := rfl
@[simp] theorem State.resetWith_returned (c : Config) : (State.resetWith c).returned = [] := rfl

end Sys2Proof.Machine
end

