-- ==== Sys2Proof/Laws/Operands.lean ====
section
/-! SUPPORT. The laws of the operands: a register reads as it was last written, a point register is a view of
two big registers and a flag. -/

namespace Sys2Proof.Machine

variable (s : State)

theorem State.big_setBig (d i : BReg) (v : Nat) : (s.setBig d v).big i = if i = d then v else s.big i := by
  simp only [State.big, State.setBig_regs, Vector.getElem_set]
  by_cases h : i = d
  · simp [h]
  · rw [if_neg h, if_neg (fun h' => h (BitVec.eq_of_toNat_eq h'.symm))]

@[simp] theorem State.big_setBig_same (d : BReg) (v : Nat) : (s.setBig d v).big d = v := by
  rw [State.big_setBig, if_pos rfl]

theorem State.big_setBig_other (d i : BReg) (v : Nat) (h : i ≠ d) : (s.setBig d v).big i = s.big i := by
  rw [State.big_setBig, if_neg h]

/-- Reading a register depends on the register file alone. -/
theorem State.big_congr (s t : State) (h : t.regs = s.regs) (i : BReg) : t.big i = s.big i := by
  simp only [State.big, h]

@[simp] theorem State.big_setPinfBit (i : PReg) (v : Bool) (j : BReg) : (s.setPinfBit i v).big j = s.big j := rfl
@[simp] theorem State.big_faultEntry (f : CoreFault) (j : BReg) : (s.faultEntry f).big j = s.big j := rfl
@[simp] theorem State.big_succeed (j : BReg) : s.succeed.big j = s.big j := rfl
@[simp] theorem State.big_consume (c : Nat) (j : BReg) : (s.consume c).big j = s.big j := rfl
@[simp] theorem State.big_emit (l : List Byte) (j : BReg) : (s.emit l).big j = s.big j := rfl
@[simp] theorem State.big_acceptCommand (w : Word) (j : BReg) : (s.acceptCommand w).big j = s.big j := rfl
@[simp] theorem State.big_refuse (j : BReg) : s.refuse.big j = s.big j := rfl
@[simp] theorem State.big_answer (w : Word) (j : BReg) : (s.answer w).big j = s.big j := rfl

theorem State.big_resetWith (c : Config) (j : BReg) : (State.resetWith c).big j = 0 := by
  simp [State.big, State.resetWith]

/-- One flag of PINF after a write of a flag. -/
theorem State.pinf_setPinfBit (i : PReg) (v : Bool) (k : Nat) (hk : k < 8) :
    (s.setPinfBit i v).pinf.getLsbD k = if k = i.toNat then v else s.pinf.getLsbD k := by
  have key : (1#8 <<< i.toNat).getLsbD k = decide (k = i.toNat) := by
    rw [BitVec.getLsbD_shiftLeft]
    by_cases h : k = i.toNat
    · simp [h ▸ hk, h]
    · simp only [BitVec.getLsbD_one, hk, h]
      simp
      omega
  cases v <;>
    simp only [State.setPinfBit_pinf, if_true, Bool.false_eq_true, if_false, BitVec.getLsbD_or,
      BitVec.getLsbD_and, BitVec.getLsbD_not, hk, key] <;>
    by_cases h : k = i.toNat <;> simp [h]

/-- The register numbers of a point's coordinates (10_state.md R23). -/
theorem xReg_toNat (i : PReg) (hi : i.toNat < 8) : (xReg i).toNat = 2 * i.toNat := by
  simp only [xReg, BitVec.toNat_mul, BitVec.toNat_ofNat]
  omega

theorem yReg_toNat (i : PReg) (hi : i.toNat < 8) : (yReg i).toNat = 2 * i.toNat + 1 := by
  simp only [yReg, BitVec.toNat_add, BitVec.toNat_mul, BitVec.toNat_ofNat]
  omega

theorem yReg_ne_xReg (i : PReg) (hi : i.toNat < 8) : yReg i ≠ xReg i := fun h => by
  have := congrArg BitVec.toNat h
  rw [xReg_toNat i hi, yReg_toNat i hi] at this
  omega

/-- What a write of a point leaves in the big registers. -/
theorem State.big_setPoint (i : PReg) (P : Point) (j : BReg) :
    (s.setPoint i P).big j =
      if j = yReg i then (match P with | .inf => 0 | .finite _ y => y)
      else if j = xReg i then (match P with | .inf => 0 | .finite x _ => x)
      else s.big j := by
  cases P <;> simp only [State.setPoint, State.big_setPinfBit, State.big_setBig]

/-- A register that is no coordinate of the point is left by a write of it. -/
theorem State.big_setPoint_other (i : PReg) (P : Point) (j : BReg) (hx : j ≠ xReg i) (hy : j ≠ yReg i) :
    (s.setPoint i P).big j = s.big j := by
  rw [State.big_setPoint, if_neg hy, if_neg hx]

/-- One flag of PINF after a write of a point. -/
theorem State.pinf_setPoint (i : PReg) (P : Point) (k : Nat) (hk : k < 8) :
    (s.setPoint i P).pinf.getLsbD k = if k = i.toNat then decide (P = .inf) else s.pinf.getLsbD k := by
  cases P <;> simp only [State.setPoint, State.pinf_setPinfBit _ _ _ _ hk] <;> simp [State.setBig]

/-- A point register reads as the point written. -/
theorem State.point_setPoint (i : PReg) (P : Point) (hi : i.toNat < 8) : (s.setPoint i P).point i = P := by
  have hp := s.pinf_setPoint i P i.toNat hi
  simp only [if_pos] at hp
  cases P with
  | inf => simp [State.point, State.pinfBit, hp]
  | finite x y =>
    simp [State.point, State.pinfBit, hp, State.big_setPoint, (yReg_ne_xReg i hi).symm]

end Sys2Proof.Machine
end

