-- ==== Sys2Proof/Laws/Ops.lean ====
section
/-! SUPPORT. What each shared operation can do, said once: the completion of a command, the pointer check, a
store, the parser of a unit. -/

namespace Sys2Proof.Machine

/-- A completion step always answers a next state (30_encoding.md R80). -/
theorem State.complete_next (s : State) (i : Instr) (r : Except CoreFault State) :
    ∃ t, s.complete i r = .next t := by
  unfold State.complete
  split
  · split <;> exact ⟨_, rfl⟩
  · exact ⟨_, rfl⟩

/-- What a completion step leaves: the rule's state with DONE set, or fault entry on the state it found. -/
theorem State.complete_cases (s : State) (i : Instr) (r : Except CoreFault State) (t : State)
    (h : s.complete i r = .next t) :
    (i.wellFormed = true ∧ ∃ u, r = .ok u ∧ t = u.succeed) ∨
      (∃ f, (i.wellFormed = true → r = .error f) ∧ t = s.faultEntry f) := by
  unfold State.complete at h
  split at h
  · rename_i hw
    split at h <;> cases h
    · exact .inl ⟨hw, _, rfl, rfl⟩
    · exact .inr ⟨_, fun _ => rfl, rfl⟩
  · rename_i hw
    cases h
    exact .inr ⟨_, fun h => absurd h hw, rfl⟩

theorem State.complete_ok (s : State) (i : Instr) (t : State) (hw : i.wellFormed = true) :
    s.complete i (.ok t) = .next t.succeed := by
  simp [State.complete, hw]

theorem State.complete_error (s : State) (i : Instr) (f : CoreFault) (hw : i.wellFormed = true) :
    s.complete i (.error f) = .next (s.faultEntry f) := by
  simp [State.complete, hw]

/-- Every fault has a code of 1 to 6 (60_exceptions.md R201). -/
theorem CoreFault.code_range (f : CoreFault) : f.code ≠ 0 ∧ f.code ≠ 7 := by
  cases f <;> simp [CoreFault.code]

/-- ERRPOS is 0 after every fault but a malformed stream (60_exceptions.md R206). -/
theorem CoreFault.errPos_eq_zero (f : CoreFault) (h : f.code ≠ 3) : f.errPos = 0 := by
  cases f <;> simp_all [CoreFault.code, CoreFault.errPos]

/-- The pointer check of 42_codec.md R141 in naturals. -/
theorem State.pointersOk_iff (s : State) :
    s.pointersOk = true ↔
      s.iptr.toNat ≤ s.ilen.toNat ∧ s.ilen.toNat ≤ s.cfg.ibytes ∧ s.optr.toNat ≤ s.cfg.obytes := by
  simp [State.pointersOk, and_assoc]

/-- What a store does (42_codec.md R140, R144, R147, R151). -/
theorem State.store_cases (s : State) (l : List Byte) :
    (s.pointersOk = false ∧ s.store l = .error .invalidParameter) ∨
      (s.pointersOk = true ∧ s.room < l.length ∧ s.store l = .error .io) ∨
      (s.pointersOk = true ∧ l.length ≤ s.room ∧ s.store l = .ok (s.emit l)) := by
  unfold State.store
  cases h : s.pointersOk
  · simp
  · by_cases hl : s.room < l.length
    · simp [hl]
    · simp [hl]
      omega

@[simp] theorem State.length_streamBytes (s : State) (pos n : Nat) : (s.streamBytes pos n).length = n :=
  Memory.length_readBytes _ _ _

/-- A length prefix is a 32-bit word. -/
theorem State.lengthWord_lt (s : State) (pos : Nat) : beValue (s.streamBytes pos 4) < 2 ^ 32 := by
  have := beValue_lt (s.streamBytes pos 4)
  rw [State.length_streamBytes] at this
  omega

/-- What the parser of a unit answers when it succeeds (42_codec.md R148). -/
theorem State.parseUnit_ok (s : State) (pos v after : Nat) (h : s.parseUnit pos = .ok (v, after)) :
    ∃ len : Nat, 4 ≤ s.ilen.toNat - pos ∧ beValue (s.streamBytes pos 4) = len ∧ len < 2 ^ 31 ∧
      len ≤ s.ilen.toNat - pos - 4 ∧ v = beValue (s.streamBytes (pos + 4) len) ∧ v < 2 ^ s.cfg.width ∧
      after = pos + 4 + len := by
  unfold State.parseUnit at h
  split at h
  · cases h
  · rename_i h4
    dsimp only at h
    split at h
    · cases h
    · rename_i hneg
      split at h
      · cases h
      · rename_i hlen
        split at h
        · cases h
        · rename_i hv
          have hb : beValue (s.streamBytes pos 4) < 2 ^ 31 := by
            by_contra hb
            exact hneg (sext32_neg _ hb (s.lengthWord_lt pos))
          rw [sext32_of_lt _ hb, Int.toNat_natCast] at hv h
          rw [sext32_of_lt _ hb] at hlen
          simp only [Except.ok.injEq, Prod.mk.injEq] at h
          obtain ⟨rfl, rfl⟩ := h
          exact ⟨_, by omega, rfl, hb, by omega, rfl, by omega, rfl⟩

/-- When the parser of a unit succeeds (42_codec.md R148). -/
theorem State.parseUnit_eq (s : State) (pos : Nat) (h4 : 4 ≤ s.ilen.toNat - pos)
    (hb : beValue (s.streamBytes pos 4) < 2 ^ 31)
    (hl : beValue (s.streamBytes pos 4) ≤ s.ilen.toNat - pos - 4)
    (hv : beValue (s.streamBytes (pos + 4) (beValue (s.streamBytes pos 4))) < 2 ^ s.cfg.width) :
    s.parseUnit pos = .ok (beValue (s.streamBytes (pos + 4) (beValue (s.streamBytes pos 4))),
      pos + 4 + beValue (s.streamBytes pos 4)) := by
  unfold State.parseUnit
  simp only [sext32_of_lt _ hb, Int.toNat_natCast]
  rw [if_neg (by omega), if_neg (by omega), if_neg (by omega), if_neg (by omega)]

/-- The faults of the parser of a unit: malformed at an offset inside the stream, or capacity. -/
theorem State.parseUnit_error (s : State) (pos : Nat) (f : CoreFault) (hp : pos ≤ s.ilen.toNat)
    (h : s.parseUnit pos = .error f) :
    (∃ q, f = .malformedCiphertext q ∧ pos ≤ q ∧ q ≤ s.ilen.toNat) ∨ f = .capacity := by
  unfold State.parseUnit at h
  split at h
  · cases h
    exact .inl ⟨pos, rfl, le_rfl, hp⟩
  · dsimp only at h
    split at h
    · cases h
      exact .inl ⟨pos, rfl, le_rfl, hp⟩
    · split at h
      · cases h
        exact .inl ⟨pos + 4, rfl, by omega, by omega⟩
      · split at h
        · cases h
          exact .inr rfl
        · cases h

end Sys2Proof.Machine
end

