-- ==== Sys2Proof/Laws/BigInt.lean ====
section
/-! SUPPORT. What the multiplier and the Euclidean unit compute (40_bigint.md R94, R105), the two datapaths
that several commands share. -/

namespace Sys2Proof.Machine

/-! ### The multiplier -/

/-- The value of one iteration (R94): twice the new accumulator is the old one, plus `y` for a set bit, plus
`n` to make it even. -/
theorem montStep_spec (x y n i acc : Nat) (hn : n % 2 = 1) :
    ∃ q, q ≤ 1 ∧ 2 * montStep x y n i acc = acc + (x.testBit i).toNat * y + q * n := by
  unfold montStep
  cases h : x.testBit i
  · by_cases h2 : acc % 2 = 1
    · refine ⟨1, le_rfl, ?_⟩
      simp [h2]
      omega
    · refine ⟨0, by omega, ?_⟩
      simp [h2]
      omega
  · by_cases h2 : (acc + y) % 2 = 1
    · refine ⟨1, le_rfl, ?_⟩
      simp [h2]
      omega
    · refine ⟨0, by omega, ?_⟩
      simp [h2]
      omega

/-- Before every iteration the accumulator is below `n + y` (R94), so below `2n` for a reduced `y`. -/
theorem montAcc_lt (x y n : Nat) (hn : n % 2 = 1) (i : Nat) : montAcc x y n i < n + y := by
  induction i with
  | zero => simp [montAcc]; omega
  | succ i ih =>
    obtain ⟨q, hq, h⟩ := montStep_spec x y n i (montAcc x y n i) hn
    have hb : (x.testBit i).toNat * y ≤ y := by cases x.testBit i <;> simp
    have hq' : q * n ≤ n := by nlinarith
    simp only [montAcc]
    omega

/-- After `i` iterations `S * 2^i = (x mod 2^i) * y (mod n)` (R94). -/
theorem montAcc_modEq (x y n : Nat) (hn : n % 2 = 1) (i : Nat) :
    montAcc x y n i * 2 ^ i ≡ x % 2 ^ i * y [MOD n] := by
  induction i with
  | zero => simp [montAcc, Nat.mod_one, Nat.ModEq.refl]
  | succ i ih =>
    obtain ⟨q, -, h⟩ := montStep_spec x y n i (montAcc x y n i) hn
    have hx : x % 2 ^ (i + 1) = x % 2 ^ i + 2 ^ i * (x.testBit i).toNat := by
      rw [pow_succ, Nat.mod_mul, Nat.toNat_testBit]
    simp only [montAcc]
    calc montStep x y n i (montAcc x y n i) * 2 ^ (i + 1)
        = 2 * montStep x y n i (montAcc x y n i) * 2 ^ i := by ring
      _ = montAcc x y n i * 2 ^ i + 2 ^ i * (x.testBit i).toNat * y + n * (q * 2 ^ i) := by rw [h]; ring
      _ ≡ montAcc x y n i * 2 ^ i + 2 ^ i * (x.testBit i).toNat * y [MOD n] := by
          simp [Nat.ModEq]
      _ ≡ x % 2 ^ i * y + 2 ^ i * (x.testBit i).toNat * y [MOD n] := ih.add_right _
      _ = x % 2 ^ (i + 1) * y := by rw [hx]; ring

/-- The multiplier's result is reduced (R94). -/
theorem montMul_lt (W x y n : Nat) (hn : n % 2 = 1) (hy : y < n) : montMul W x y n < n := by
  have := montAcc_lt x y n hn W
  unfold montMul
  simp only
  split <;> omega

/-- The multiplier's result times `R` is the product, modulo `n` (R94). -/
theorem montMul_modEq (W x y n : Nat) (hn : n % 2 = 1) (hx : x < 2 ^ W) :
    montMul W x y n * 2 ^ W ≡ x * y [MOD n] := by
  have h := montAcc_modEq x y n hn W
  rw [Nat.mod_eq_of_lt hx] at h
  refine Nat.ModEq.trans (Nat.ModEq.mul_right _ ?_) h
  unfold montMul
  simp only
  split
  · rename_i hge
    have : n ≡ 0 [MOD n] := by simp [Nat.ModEq]
    exact (Nat.ModEq.add_right_cancel' n (by
      rw [Nat.sub_add_cancel hge]
      exact (this.symm.add_left (montAcc x y n W))))
  · rfl

/-! ### The Euclidean unit -/

/-- Euclid's loop with enough fuel gives the gcd (R109). -/
theorem gcdLoop_eq (fuel : Nat) : ∀ u v, v ≤ fuel → gcdLoop fuel u v = Nat.gcd u v := by
  induction fuel with
  | zero =>
    intro u v h
    simp [gcdLoop, Nat.le_zero.1 h]
  | succ fuel ih =>
    intro u v h
    simp only [gcdLoop]
    split
    · subst_vars; simp
    · rename_i hv
      rw [ih _ _ (by have := Nat.mod_lt u (Nat.pos_of_ne_zero hv); omega), Nat.gcd_comm v,
        ← Nat.gcd_rec, Nat.gcd_comm]

/-- The extended loop (R105): it ends at the gcd, and the coefficient invariant holds at the end. -/
theorem xgcdLoop_spec (u m : Nat) (fuel : Nat) :
    ∀ (r0 r1 : Nat) (t0 t1 : Int), r1 ≤ fuel → t0 * u ≡ r0 [ZMOD m] → t1 * u ≡ r1 [ZMOD m] →
      (xgcdLoop fuel r0 r1 t0 t1).1 = Nat.gcd r0 r1 ∧
        (xgcdLoop fuel r0 r1 t0 t1).2 * u ≡ (xgcdLoop fuel r0 r1 t0 t1).1 [ZMOD m] := by
  induction fuel with
  | zero =>
    intro r0 r1 t0 t1 h h0 h1
    simp [xgcdLoop, Nat.le_zero.1 h, h0]
  | succ fuel ih =>
    intro r0 r1 t0 t1 h h0 h1
    simp only [xgcdLoop]
    split
    · subst_vars; simp [h0]
    · rename_i hr
      have hmod : r0 - r0 / r1 * r1 = r0 % r1 := by
        have := Nat.div_add_mod' r0 r1
        omega
      have hcast : ((r0 - r0 / r1 * r1 : Nat) : Int) = (r0 : Int) - (r0 / r1 : Nat) * r1 := by
        have := Nat.div_mul_le_self r0 r1
        push_cast [Nat.cast_sub this]
        rfl
      have key : (t0 - (r0 / r1 : Nat) * t1) * u ≡ ((r0 - r0 / r1 * r1 : Nat) : Int) [ZMOD m] := by
        rw [hcast, sub_mul, mul_assoc]
        exact h0.sub (h1.mul_left _)
      have hlt := Nat.mod_lt r0 (Nat.pos_of_ne_zero hr)
      obtain ⟨hg, ht⟩ := ih r1 (r0 - r0 / r1 * r1) t1 _ (by omega) h1 key
      refine ⟨?_, ht⟩
      rw [hg, hmod, Nat.gcd_comm r1, ← Nat.gcd_rec, Nat.gcd_comm]

/-- `XGCD(u, m)` (R105): the gcd, and a coefficient of `u` modulo `m`. -/
theorem xgcd_spec (u m : Nat) (hm : m ≠ 0) :
    (xgcd u m).1 = Nat.gcd u m ∧ (xgcd u m).2 < m ∧ u * (xgcd u m).2 ≡ Nat.gcd u m [MOD m] := by
  obtain ⟨hg, ht⟩ := xgcdLoop_spec u m u m u 0 1 le_rfl (by simp [Int.ModEq]) (by simp [Int.ModEq])
  refine ⟨by simpa [xgcd, Nat.gcd_comm] using hg, intMod_lt _ _ hm, ?_⟩
  rw [← Int.natCast_modEq_iff]
  simp only [xgcd, Nat.cast_mul, intMod_cast _ _ hm]
  rw [hg, Nat.gcd_comm] at ht
  calc (u : Int) * ((xgcdLoop u m u 0 1).2 % m) ≡ u * (xgcdLoop u m u 0 1).2 [ZMOD m] :=
        (Int.mod_modEq _ _).mul_left _
    _ = (xgcdLoop u m u 0 1).2 * u := mul_comm _ _
    _ ≡ _ [ZMOD m] := ht

/-- What the inverse unit answers (R104): a fault exactly when the gcd is not 1, else the inverse. -/
theorem inverse_cases (a m : Nat) (hm : m ≠ 0) :
    (Nat.gcd a m ≠ 1 ∧ inverse a m = .error .arithmetic) ∨
      (Nat.gcd a m = 1 ∧ ∃ t, inverse a m = .ok t ∧ t < m ∧ a * t ≡ 1 [MOD m]) := by
  obtain ⟨hg, hlt, hmul⟩ := xgcd_spec (a % m) m hm
  have hgcd : Nat.gcd (a % m) m = Nat.gcd a m := by rw [← Nat.gcd_rec, Nat.gcd_comm]
  rw [hgcd] at hg hmul
  by_cases h : Nat.gcd a m = 1
  · refine .inr ⟨h, (xgcd (a % m) m).2, ?_, hlt, ?_⟩
    · simp [inverse, hg, h]
    · rw [h] at hmul
      exact ((Nat.mod_modEq a m).symm.mul_right _).trans hmul
  · exact .inl ⟨h, by simp [inverse, hg, h]⟩

/-- The inverse is unique in `0 .. m-1` (R104). -/
theorem inverse_unique (a m t t' : Nat) (ht : t < m) (ht' : t' < m) (h : a * t ≡ 1 [MOD m])
    (h' : a * t' ≡ 1 [MOD m]) : t = t' := by
  have h1 : t ≡ t' [MOD m] := by
    calc t = t * 1 := (mul_one t).symm
      _ ≡ t * (a * t') [MOD m] := (h'.symm).mul_left t
      _ = a * t * t' := by ring
      _ ≡ 1 * t' [MOD m] := h.mul_right t'
      _ = t' := one_mul t'
  rwa [Nat.ModEq, Nat.mod_eq_of_lt ht, Nat.mod_eq_of_lt ht'] at h1

end Sys2Proof.Machine
end

