-- ==== Sys2Proof/Laws/Bus.lean ====
section
/-! SUPPORT. What a host access can do, said once: a read answers one word and changes at most HOSTERR, a write is
one of the performed writes or is refused (20_memory.md R56 to R58). -/

namespace Sys2Proof.Machine

/-- The words of the control registers end at 0x30 (20_memory.md R51). -/
theorem ctlAt_some (k : Nat) (r : CtlReg) (h : ctlAt k = some r) : k < 13 := by
  by_contra hk
  obtain ⟨j, rfl⟩ := Nat.exists_eq_add_of_le' (by omega : 13 ≤ k)
  cases h

/-- Which location an aligned word access names, and that it is inside the window's map (20_memory.md R51, R52). -/
theorem target_cases (c : Config) (offset bytes : Nat) (l : Loc) (h : target c offset bytes = some l) :
    bytes = 4 ∧ offset % 4 = 0 ∧
      ((offset < 0x34 ∧ ∃ r, ctlAt (offset / 4) = some r ∧ l = .ctl r) ∨
        (0x1000 ≤ offset ∧ offset < 0x3000 ∧ (offset - 0x1000) % 0x200 / 4 < c.width / 32 ∧
          l = .limb (BitVec.ofNat 4 ((offset - 0x1000) / 0x200)) ((offset - 0x1000) % 0x200 / 4)) ∨
        (0x4000 ≤ offset ∧ offset < 0x8000 ∧ offset - 0x4000 < c.ibytes ∧ l = .ibuf (offset - 0x4000)) ∨
        (0x8000 ≤ offset ∧ offset < 0xC000 ∧ offset - 0x8000 < c.obytes ∧ l = .obuf (offset - 0x8000))) := by
  unfold target at h
  split at h
  · rename_i h0
    refine ⟨h0.1, h0.2, ?_⟩
    unfold locate at h
    split at h
    · simp only [Option.map_eq_some_iff] at h
      obtain ⟨r, hr, rfl⟩ := h
      have := ctlAt_some _ _ hr
      exact .inl ⟨by omega, r, hr, rfl⟩
    · split at h
      · dsimp only at h
        split at h
        · cases h; exact .inr (.inl ⟨by omega, by omega, by omega, rfl⟩)
        · cases h
      · split at h
        · cases h
        · split at h
          · split at h
            · cases h; exact .inr (.inr (.inl ⟨by omega, by omega, by omega, rfl⟩))
            · cases h
          · split at h
            · split at h
              · cases h; exact .inr (.inr (.inr ⟨by omega, by omega, by omega, rfl⟩))
              · cases h
            · cases h
  · cases h

/-- Only the word at offset 0x10 is CTRL (20_memory.md R51). -/
theorem target_ctrl (c : Config) (offset bytes : Nat) (h : target c offset bytes = some (.ctl .ctrl)) :
    offset = 0x10 ∧ bytes = 4 := by
  obtain ⟨hb, h4, ⟨-, r, hr, hl⟩ | ⟨-, -, -, hl⟩ | ⟨-, -, -, hl⟩ | ⟨-, -, -, hl⟩⟩ := target_cases c offset bytes _ h
  · cases hl
    refine ⟨?_, hb⟩
    have : offset / 4 = 4 := by
      unfold ctlAt at hr
      split at hr <;> simp_all
    omega
  all_goals cases hl

/-- A read answers the word it names, or is refused (20_memory.md R57, R58). -/
theorem State.hostRead_cases (s : State) (offset bytes : Nat) :
    (∃ l, target s.cfg offset bytes = some l ∧ s.mayRead l = true ∧
        s.hostRead offset bytes = s.answer (s.locRead l)) ∨
      s.hostRead offset bytes = s.refuse.answer 0 := by
  unfold State.hostRead
  split
  · rename_i l hl
    cases h : s.mayRead l
    · exact .inr (by simp)
    · exact .inl ⟨l, hl, h, by simp⟩
  · exact .inr rfl

/-- A write is refused, writes CTRL, or is one of the writes performed while CORE is idle (20_memory.md R56). -/
theorem State.hostWrite_cases (s : State) (offset bytes : Nat) (d : Word) :
    s.hostWrite offset bytes d = s.refuse ∨
      (offset = 0x10 ∧ bytes = 4 ∧ s.hostWrite offset bytes d = s.writeCtrl d) ∨
      (s.idle = true ∧
        (s.hostWrite offset bytes d = s.acceptCommand d ∨
          s.hostWrite offset bytes d = { s with pinf := d.setWidth 8 } ∨
          s.hostWrite offset bytes d = { s with iptr := d } ∨
          s.hostWrite offset bytes d = { s with ilen := d } ∨
          s.hostWrite offset bytes d = { s with optr := d } ∨
          (∃ i j, j < s.cfg.width / 32 ∧ s.hostWrite offset bytes d = s.setBig i (withLimb (s.big i) j d)) ∨
          (∃ k, k % 4 = 0 ∧ k < s.cfg.ibytes ∧
            s.hostWrite offset bytes d = { s with ibuf := s.ibuf.writeBytes k (lanes d) }) ∨
          (∃ k, k % 4 = 0 ∧ k < s.cfg.obytes ∧
            s.hostWrite offset bytes d = { s with obuf := s.obuf.writeBytes k (lanes d) }))) := by
  unfold State.hostWrite
  cases ht : target s.cfg offset bytes with
  | none => exact .inl rfl
  | some l =>
    obtain ⟨hb, h4, hl⟩ := target_cases _ _ _ _ ht
    rcases hl with ⟨-, r, hr, rfl⟩ | ⟨-, -, hj, rfl⟩ | ⟨-, -, hk, rfl⟩ | ⟨-, -, hk, rfl⟩
    · cases r with
      | ctrl => exact .inr (.inl ⟨(target_ctrl _ _ _ ht).1, hb, rfl⟩)
      | cmd | pinf | iptr | ilen | optr => cases hi : s.idle <;> simp [State.locWrite, State.ctlWrite, hi]
      | status | cause | errPos | cnt | width | ibsz | obsz => exact .inl rfl
    · cases hi : s.idle
      · exact .inl (by simp [State.locWrite, hi])
      · refine .inr (.inr ⟨rfl, ?_⟩)
        simp only [State.locWrite, hi, if_true, Option.getD_some]
        exact .inr (.inr (.inr (.inr (.inr (.inl ⟨_, _, hj, rfl⟩)))))
    · cases hi : s.idle
      · exact .inl (by simp [State.locWrite, hi])
      · refine .inr (.inr ⟨rfl, ?_⟩)
        simp only [State.locWrite, hi, if_true, Option.getD_some]
        exact .inr (.inr (.inr (.inr (.inr (.inr (.inl ⟨_, by omega, hk, rfl⟩))))))
    · cases hi : s.idle
      · exact .inl (by simp [State.locWrite, hi])
      · refine .inr (.inr ⟨rfl, ?_⟩)
        simp only [State.locWrite, hi, if_true, Option.getD_some]
        exact .inr (.inr (.inr (.inr (.inr (.inr (.inr ⟨_, by omega, hk, rfl⟩))))))

/-- While CORE is busy or faulted every write but CTRL's is refused (20_memory.md R56). -/
theorem State.hostWrite_not_idle (s : State) (offset bytes : Nat) (d : Word) (hi : s.idle = false)
    (h : ¬(offset = 0x10 ∧ bytes = 4)) : s.hostWrite offset bytes d = s.refuse := by
  rcases s.hostWrite_cases offset bytes d with h' | ⟨ho, hb, -⟩ | ⟨hi', -⟩
  · exact h'
  · exact absurd ⟨ho, hb⟩ h
  · rw [hi] at hi'; cases hi'

/-- A write of CTRL resets, or writes the enables (10_state.md R31). -/
theorem State.writeCtrl_cases (s : State) (d : Word) :
    (d.getLsbD 0 = true ∧ s.writeCtrl d = s.performReset) ∨
      (d.getLsbD 0 = false ∧ s.writeCtrl d = { s with ieDone := d.getLsbD 1, ieErr := d.getLsbD 2 }) := by
  unfold State.writeCtrl
  cases d.getLsbD 0 <;> simp

/-- The big registers stay below `2^W` under a limb write (20_memory.md R55). -/
theorem withLimb_lt (v j W : Nat) (d : Word) (hv : v < 2 ^ W) (hW : W % 32 = 0) (hj : j < W / 32) :
    withLimb v j d < 2 ^ W := by
  obtain ⟨m, rfl⟩ : ∃ m, W = 32 * (j + 1) + m := ⟨W - 32 * (j + 1), by omega⟩
  have hd : d.toNat + 1 ≤ 2 ^ 32 := d.isLt
  have hlow : v % 2 ^ (32 * j) < 2 ^ (32 * j) := Nat.mod_lt _ (by positivity)
  have hhigh : v / 2 ^ (32 * (j + 1)) + 1 ≤ 2 ^ m := by
    rw [pow_add] at hv
    exact Nat.div_lt_of_lt_mul hv
  have hp : 2 ^ (32 * (j + 1)) = 2 ^ (32 * j) * 2 ^ 32 := by rw [← pow_add]; ring_nf
  unfold withLimb
  rw [pow_add]
  calc _ < v / 2 ^ (32 * (j + 1)) * 2 ^ (32 * (j + 1)) + (d.toNat + 1) * 2 ^ (32 * j) := by
        rw [Nat.add_mul]; omega
    _ ≤ v / 2 ^ (32 * (j + 1)) * 2 ^ (32 * (j + 1)) + 2 ^ (32 * (j + 1)) := by
        rw [hp, Nat.mul_comm (2 ^ (32 * j)) (2 ^ 32)]
        exact Nat.add_le_add_left (Nat.mul_le_mul_right _ hd) _
    _ = (v / 2 ^ (32 * (j + 1)) + 1) * 2 ^ (32 * (j + 1)) := by ring
    _ ≤ 2 ^ m * 2 ^ (32 * (j + 1)) := Nat.mul_le_mul_right _ hhigh
    _ = _ := Nat.mul_comm _ _

/-- The bits of a register after a limb write: the limb's own come from the data, the others stay (20_memory.md
R55). -/
theorem testBit_withLimb (v j : Nat) (d : Word) (i : Nat) :
    (withLimb v j d).testBit i =
      if 32 * j ≤ i ∧ i < 32 * (j + 1) then d.getLsbD (i - 32 * j) else v.testBit i := by
  have hlow : v % 2 ^ (32 * j) < 2 ^ (32 * j) := Nat.mod_lt _ (by positivity)
  have hsplit : withLimb v j d =
      2 ^ (32 * j) * (2 ^ 32 * (v / 2 ^ (32 * (j + 1))) + d.toNat) + v % 2 ^ (32 * j) := by
    have hp : 2 ^ (32 * (j + 1)) = 2 ^ (32 * j) * 2 ^ 32 := by rw [← pow_add]; ring_nf
    unfold withLimb
    rw [hp]
    ring
  rw [hsplit, Nat.testBit_two_pow_mul_add _ hlow, Nat.testBit_two_pow_mul_add _ d.isLt]
  by_cases h1 : i < 32 * j
  · rw [if_pos h1, if_neg (by omega), Nat.testBit_mod_two_pow]
    simp [h1]
  · rw [if_neg h1]
    by_cases h2 : i - 32 * j < 32
    · rw [if_pos h2, if_pos (by omega)]
      rfl
    · rw [if_neg h2, if_neg (by omega), Nat.testBit_div_two_pow]
      congr 1
      omega

@[simp] theorem length_lanes (d : Word) : (lanes d).length = 4 := rfl

end Sys2Proof.Machine
end

