-- ==== Sys2Proof/Laws/Decode.lean ====
section
/-! SUPPORT. The laws of the command word: a field of a packed word is the field packed, and a word with
`z = 0` is the word packed from its fields. -/

namespace Sys2Proof

variable (op : BitVec 8) (f1 f2 f3 f4 f5 : BitVec 4)

theorem opField_packR5 : opField (packR5 op f1 f2 f3 f4 f5) = op := by
  ext i hi
  interval_cases i <;>
    simp only [opField, packR5, BitVec.getElem_extractLsb', BitVec.getLsbD_append] <;> simp

theorem field1_packR5 : field1 (packR5 op f1 f2 f3 f4 f5) = f1 := by
  ext i hi
  interval_cases i <;>
    simp only [field1, packR5, BitVec.getElem_extractLsb', BitVec.getLsbD_append] <;> simp

theorem field2_packR5 : field2 (packR5 op f1 f2 f3 f4 f5) = f2 := by
  ext i hi
  interval_cases i <;>
    simp only [field2, packR5, BitVec.getElem_extractLsb', BitVec.getLsbD_append] <;> simp

theorem field3_packR5 : field3 (packR5 op f1 f2 f3 f4 f5) = f3 := by
  ext i hi
  interval_cases i <;>
    simp only [field3, packR5, BitVec.getElem_extractLsb', BitVec.getLsbD_append] <;> simp

theorem field4_packR5 : field4 (packR5 op f1 f2 f3 f4 f5) = f4 := by
  ext i hi
  interval_cases i <;>
    simp only [field4, packR5, BitVec.getElem_extractLsb', BitVec.getLsbD_append] <;> simp

theorem field5_packR5 : field5 (packR5 op f1 f2 f3 f4 f5) = f5 := by
  ext i hi
  interval_cases i <;>
    simp only [field5, packR5, BitVec.getElem_extractLsb', BitVec.getLsbD_append] <;> simp

theorem zField_packR5 : zField (packR5 op f1 f2 f3 f4 f5) = 0#4 := by
  ext i hi
  interval_cases i <;>
    simp only [zField, packR5, BitVec.getElem_extractLsb', BitVec.getLsbD_append] <;> simp

/-- A word is its fields (R70). -/
theorem append_fields (w : Word) :
    (opField w ++ field1 w ++ field2 w ++ field3 w ++ field4 w ++ field5 w ++ zField w : Word) = w := by
  refine BitVec.eq_of_getLsbD_eq fun i hi => ?_
  simp only [BitVec.getLsbD_append, opField, field1, field2, field3, field4, field5, zField,
    BitVec.getLsbD_extractLsb']
  interval_cases i <;> simp

theorem packR5_fields (w : Word) (h : zField w = 0#4) :
    packR5 (opField w) (field1 w) (field2 w) (field3 w) (field4 w) (field5 w) = w := by
  have := append_fields w
  rw [h] at this
  exact this

/-- What `accept` answers. -/
theorem accept_eq_ok (unused : List (BitVec 4)) (i j : Instr) :
    accept unused i = .ok j ↔ (∀ f ∈ unused, f = 0#4) ∧ i.wellFormed = true ∧ i = j := by
  unfold accept
  split
  · rename_i h
    simp only [reduceCtorEq, false_iff]
    rintro ⟨h', -⟩
    obtain ⟨f, hf, hne⟩ := List.any_eq_true.1 h
    simp [h' f hf] at hne
  · rename_i h
    have h0 : ∀ f ∈ unused, f = 0#4 := fun f hf => by
      by_contra hne
      exact h (List.any_eq_true.2 ⟨f, hf, by simpa using hne⟩)
    split <;> simp_all
    exact fun _ => h0

/-- What the decoder answers on a packed word: the row of its opcode, tested on its fields (30_encoding.md R83). -/
theorem decode_packR5 :
    decode (packR5 op f1 f2 f3 f4 f5) =
      match op.toNat with
      | 0x01 => accept [f5] (.montmul f1 f2 f3 f4)
      | 0x02 => accept [f5] (.modexp f1 f2 f3 f4)
      | 0x03 => accept [f4, f5] (.modinv f1 f2 f3)
      | 0x04 => accept [f4, f5] (.gcd f1 f2 f3)
      | 0x10 => accept [] (.padd f1 f2 f3 f4 f5)
      | 0x11 => accept [f5] (.pdbl f1 f2 f3 f4)
      | 0x12 => accept [] (.pmul f1 f2 f3 f4 f5)
      | 0x13 => accept [f4, f5] (.pneg f1 f2 f3)
      | 0x20 => accept [f3, f4, f5] (.ldblk f1 f2)
      | 0x21 => accept [f2, f3, f4, f5] (.stint f1)
      | 0x22 => accept [f2, f3, f4, f5] (.wrunit f1)
      | 0x23 => accept [f2, f3, f4, f5] (.rdunit f1)
      | 0x24 => accept [f2, f3, f4, f5] (.wrpt f1)
      | 0x25 => accept [f2, f3, f4, f5] (.rdpt f1)
      | _ => .error .unknownOp := by
  unfold decode
  simp only [zField_packR5, opField_packR5, field1_packR5, field2_packR5, field3_packR5, field4_packR5,
    field5_packR5]
  rfl

/-- A word masked by a packed mask, field by field. -/
theorem packR5_and (m : BitVec 8) (m1 m2 m3 m4 m5 : BitVec 4) (z : BitVec 4) :
    packR5 op f1 f2 f3 f4 f5 &&& (m ++ m1 ++ m2 ++ m3 ++ m4 ++ m5 ++ z : Word) =
      packR5 (op &&& m) (f1 &&& m1) (f2 &&& m2) (f3 &&& m3) (f4 &&& m4) (f5 &&& m5) := by
  refine BitVec.eq_of_getLsbD_eq fun i hi => ?_
  simp only [packR5, BitVec.getLsbD_and, BitVec.getLsbD_append]
  interval_cases i <;> simp

/-- A point field is one of 0 to 7 exactly when its top bit is 0 (30_encoding.md R70). -/
theorem isPoint_iff_and (f : PReg) : isPoint f = true ↔ f &&& 8#4 = 0#4 := by
  revert f; decide

end Sys2Proof
end

