-- ==== Sys2Proof/Laws/Exec.lean ====
section
/-! SUPPORT. What a step can do, said once: every meaning is the completion of the command's rule, and a step is
the delivery of the next event or the sequencer's move. -/

namespace Sys2Proof.Machine

/-- The rule of each command: the state with its writes, or the fault it raises. -/
def ruleOf (i : Instr) (s : State) : Except CoreFault State :=
  match i with
  | .montmul bd ba bb bn => montmulRule bd ba bb bn s
  | .modexp bd ba be bn => modexpRule bd ba be bn s
  | .modinv bd ba bn => modinvRule bd ba bn s
  | .gcd bd ba bb => gcdRule bd ba bb s
  | .padd pd pa pb bA bn =>
    pointRule s pd (s.big bn) [s.point pa, s.point pb]
      (pointAdd (s.point pa) (s.point pb) (s.big bA) (s.big bn))
  | .pdbl pd pa bA bn =>
    pointRule s pd (s.big bn) [s.point pa] (pointDouble (s.point pa) (s.big bA) (s.big bn))
  | .pmul pd pa bk bA bn =>
    pointRule s pd (s.big bn) [s.point pa] (pointMul (s.point pa) (s.big bk) (s.big bA) (s.big bn))
  | .pneg pd pa bn =>
    pointRule s pd (s.big bn) [s.point pa] (.ok (pointNeg (s.point pa) (s.big bn)))
  | .ldblk bd bn => ldblkRule bd bn s
  | .stint bs => s.store (mag (s.big bs))
  | .wrunit bs => s.store (unitBytes (s.big bs))
  | .rdunit bd => rdunitRule bd s
  | .wrpt ps => s.store (pointBytes (s.point ps))
  | .rdpt pd => rdptRule pd s

/-- Every meaning is the completion of its rule (30_encoding.md R80). -/
theorem exec_eq (i : Instr) (s : State) : exec i s = s.complete i (ruleOf i s) := by
  cases i <;> rfl

/-- What the completion of a well-formed command leaves: its rule's state with DONE set, or fault entry. -/
theorem exec_cases (i : Instr) (s t : State) (h : exec i s = .next t) :
    (i.wellFormed = true ∧ ∃ u, ruleOf i s = .ok u ∧ t = u.succeed) ∨
      (∃ f, (i.wellFormed = true → ruleOf i s = .error f) ∧ t = s.faultEntry f) :=
  s.complete_cases i _ t (by rw [← exec_eq, h])

theorem exec_ok (i : Instr) (s u : State) (hw : i.wellFormed = true) (h : ruleOf i s = .ok u) :
    exec i s = .next u.succeed := by
  rw [exec_eq, h, State.complete_ok s i u hw]

theorem exec_error (i : Instr) (s : State) (f : CoreFault) (hw : i.wellFormed = true)
    (h : ruleOf i s = .error f) : exec i s = .next (s.faultEntry f) := by
  rw [exec_eq, h, State.complete_error s i f hw]

/-- What a point command's rule does (41_ec.md R121, R133). -/
theorem pointRule_cases (s : State) (pd : PReg) (p : Nat) (l : List Point) (res : Except CoreFault Point) :
    ((p = 0 ∨ l.all (inRange p) = false) ∧ pointRule s pd p l res = .error .invalidParameter) ∨
      (p ≠ 0 ∧ l.all (inRange p) = true ∧
        ((∃ f, res = .error f ∧ pointRule s pd p l res = .error f) ∨
          (∃ P, res = .ok P ∧ pointRule s pd p l res = .ok (s.setPoint pd P)))) := by
  unfold pointRule pointChecks
  by_cases hp : p = 0
  · simp [hp]
  · cases hl : l.all (inRange p)
    · simp [hp]
    · cases res <;> simp [hp]

/-- The sequencer's move, as what it answers. -/
theorem State.sequence_cases (s t : State) (h : s.sequence = .next t) :
    (s.busy = false ∧ t = s) ∨ (s.busy = true ∧ ∃ i, decode s.cmd = .ok i ∧ exec i s = .next t) ∨
      (s.busy = true ∧ (∃ e, decode s.cmd = .error e) ∧ t = s.faultEntry .unsupportedCommand) := by
  unfold State.sequence State.fetch at h
  split at h
  · rename_i hb
    split at h
    · rename_i i hd
      exact .inr (.inl ⟨hb, i, hd, h⟩)
    · rename_i e hd
      cases h
      exact .inr (.inr ⟨hb, ⟨e, hd⟩, rfl⟩)
  · rename_i hb
    cases h
    exact .inl ⟨by simpa using hb, rfl⟩

/-- A step with no pending event is the sequencer's move. -/
theorem step_nil (s : State) (h : s.pending = []) : step s = s.sequence := by
  unfold step
  rw [h]

/-- A step with a pending event delivers it. -/
theorem step_cons (s : State) (e : Event) (rest : List Event) (h : s.pending = e :: rest) :
    step s = State.deliver { s with pending := rest } e := by
  unfold step
  rw [h]

end Sys2Proof.Machine
end

