-- ==== Sys2Proof/Laws/PerInstr.lean ====
section
/-! SUPPORT. Statements made per instruction, one lemma for each constructor of `Instr`. -/

namespace Sys2Proof.Laws.EncodesToItsRow

open Sys2Proof

/-- The word of a well-formed command matches a row of the opcode map that bears its mnemonic (30_encoding.md
R72). -/
def Statement (i : Instr) : Prop :=
  i.wellFormed = true → ∃ r ∈ opcodeMap, r.mnemonic = i.mnemonic ∧ encode i &&& r.mask = r.pattern

/-- The row of the mask given field by field. -/
theorem of_row (i : Instr) (r : Row) (hr : r ∈ opcodeMap) (hn : r.mnemonic = i.mnemonic)
    (op m : BitVec 8) (f1 f2 f3 f4 f5 m1 m2 m3 m4 m5 z : BitVec 4) (hi : encode i = packR5 op f1 f2 f3 f4 f5)
    (hm : r.mask = m ++ m1 ++ m2 ++ m3 ++ m4 ++ m5 ++ z)
    (hp : i.wellFormed = true →
      packR5 (op &&& m) (f1 &&& m1) (f2 &&& m2) (f3 &&& m3) (f4 &&& m4) (f5 &&& m5) = r.pattern) :
    Statement i := fun hw => ⟨r, hr, hn, by rw [hi, hm, packR5_and, hp hw]⟩

variable (a b c d e : BitVec 4)

theorem montmul : Statement (.montmul a b c d) :=
  of_row _ ⟨"MONTMUL", 0x01000000, 0xFF0000FF⟩ (by decide) rfl 0x01 0xFF a b c d 0 0 0 0 0 15 15 rfl rfl
    fun _ => by simp; rfl

theorem modexp : Statement (.modexp a b c d) :=
  of_row _ ⟨"MODEXP", 0x02000000, 0xFF0000FF⟩ (by decide) rfl 0x02 0xFF a b c d 0 0 0 0 0 15 15 rfl rfl
    fun _ => by simp; rfl

theorem modinv : Statement (.modinv a b c) :=
  of_row _ ⟨"MODINV", 0x03000000, 0xFF000FFF⟩ (by decide) rfl 0x03 0xFF a b c 0 0 0 0 0 15 15 15 rfl rfl
    fun _ => by simp; rfl

theorem gcd : Statement (.gcd a b c) :=
  of_row _ ⟨"GCD", 0x04000000, 0xFF000FFF⟩ (by decide) rfl 0x04 0xFF a b c 0 0 0 0 0 15 15 15 rfl rfl
    fun _ => by simp; rfl

theorem padd : Statement (.padd a b c d e) :=
  of_row _ ⟨"PADD", 0x10000000, 0xFF88800F⟩ (by decide) rfl 0x10 0xFF a b c d e 8 8 8 0 0 15 rfl rfl
    fun hw => by
      simp only [Instr.wellFormed, Bool.and_eq_true, isPoint_iff_and] at hw
      simp [hw]; rfl

theorem pdbl : Statement (.pdbl a b c d) :=
  of_row _ ⟨"PDBL", 0x11000000, 0xFF8800FF⟩ (by decide) rfl 0x11 0xFF a b c d 0 8 8 0 0 15 15 rfl rfl
    fun hw => by
      simp only [Instr.wellFormed, Bool.and_eq_true, isPoint_iff_and] at hw
      simp [hw]; rfl

theorem pmul : Statement (.pmul a b c d e) :=
  of_row _ ⟨"PMUL", 0x12000000, 0xFF88000F⟩ (by decide) rfl 0x12 0xFF a b c d e 8 8 0 0 0 15 rfl rfl
    fun hw => by
      simp only [Instr.wellFormed, Bool.and_eq_true, isPoint_iff_and] at hw
      simp [hw]; rfl

theorem pneg : Statement (.pneg a b c) :=
  of_row _ ⟨"PNEG", 0x13000000, 0xFF880FFF⟩ (by decide) rfl 0x13 0xFF a b c 0 0 8 8 0 15 15 15 rfl rfl
    fun hw => by
      simp only [Instr.wellFormed, Bool.and_eq_true, isPoint_iff_and] at hw
      simp [hw]; rfl

theorem ldblk : Statement (.ldblk a b) :=
  of_row _ ⟨"LDBLK", 0x20000000, 0xFF00FFFF⟩ (by decide) rfl 0x20 0xFF a b 0 0 0 0 0 15 15 15 15 rfl rfl
    fun _ => by simp; rfl

theorem stint : Statement (.stint a) :=
  of_row _ ⟨"STINT", 0x21000000, 0xFF0FFFFF⟩ (by decide) rfl 0x21 0xFF a 0 0 0 0 0 15 15 15 15 15 rfl rfl
    fun _ => by simp; rfl

theorem wrunit : Statement (.wrunit a) :=
  of_row _ ⟨"WRUNIT", 0x22000000, 0xFF0FFFFF⟩ (by decide) rfl 0x22 0xFF a 0 0 0 0 0 15 15 15 15 15 rfl rfl
    fun _ => by simp; rfl

theorem rdunit : Statement (.rdunit a) :=
  of_row _ ⟨"RDUNIT", 0x23000000, 0xFF0FFFFF⟩ (by decide) rfl 0x23 0xFF a 0 0 0 0 0 15 15 15 15 15 rfl rfl
    fun _ => by simp; rfl

theorem wrpt : Statement (.wrpt a) :=
  of_row _ ⟨"WRPT", 0x24000000, 0xFF8FFFFF⟩ (by decide) rfl 0x24 0xFF a 0 0 0 0 8 15 15 15 15 15 rfl rfl
    fun hw => by
      simp only [Instr.wellFormed, isPoint_iff_and] at hw
      simp [hw]; rfl

theorem rdpt : Statement (.rdpt a) :=
  of_row _ ⟨"RDPT", 0x25000000, 0xFF8FFFFF⟩ (by decide) rfl 0x25 0xFF a 0 0 0 0 8 15 15 15 15 15 rfl rfl
    fun hw => by
      simp only [Instr.wellFormed, isPoint_iff_and] at hw
      simp [hw]; rfl

end Sys2Proof.Laws.EncodesToItsRow
end

