-- ==== Sys2Proof/Laws/Rules.lean ====
section
/-! SUPPORT. What the rule of a command can do, said once for all fourteen: the shape of the state it leaves, what
it keeps, and the faults it raises. -/

namespace Sys2Proof.Machine

/-! ### What a rule writes -/

/-- What LDBLK leaves when it does not fault (42_codec.md R142). -/
theorem ldblkRule_ok (bd bn : BReg) (s u : State) (h : ldblkRule bd bn s = .ok u) :
    s.pointersOk = true ∧ s.big bn ≠ 0 ∧ blockLength (s.big bn) ≠ 0 ∧
      u = (s.setBig bd (beValue (s.streamBytes s.iptr.toNat (min (blockLength (s.big bn)) s.avail)))).consume
        (min (blockLength (s.big bn)) s.avail) := by
  unfold ldblkRule at h
  split at h
  · cases h
  · dsimp only at h
    split at h
    · cases h
    · split at h
      · cases h
      · cases h; simp_all

/-- What RDUNIT leaves when it does not fault (42_codec.md R150). -/
theorem rdunitRule_ok (bd : BReg) (s u : State) (h : rdunitRule bd s = .ok u) :
    s.pointersOk = true ∧ ∃ v n, s.parseUnit s.iptr.toNat = .ok (v, n) ∧
      u = (s.setBig bd v).consume (n - s.iptr.toNat) := by
  unfold rdunitRule at h
  split at h
  · cases h
  · split at h
    · cases h
    · cases h; simp_all

/-- What RDPT leaves when it does not fault (42_codec.md R152). -/
theorem rdptRule_ok (pd : PReg) (s u : State) (h : rdptRule pd s = .ok u) :
    s.pointersOk = true ∧ 1 ≤ s.avail ∧
      ((s.ibuf.read s.iptr.toNat = 0x01 ∧ u = (s.setPoint pd .inf).consume 1) ∨
        (s.ibuf.read s.iptr.toNat = 0x00 ∧ ∃ x y n1 n2, s.parseUnit (s.iptr.toNat + 1) = .ok (x, n1) ∧
          s.parseUnit n1 = .ok (y, n2) ∧
          u = (s.setPoint pd (.finite x y)).consume (n2 - s.iptr.toNat))) := by
  unfold rdptRule at h
  split at h
  · cases h
  · rename_i hp
    split at h
    · cases h
    · rename_i ha
      refine ⟨by simpa using hp, by omega, ?_⟩
      dsimp only at h
      split at h
      · cases h; exact .inl ⟨by assumption, rfl⟩
      · split at h
        · split at h
          · cases h
          · split at h
            · cases h
            · rename_i h0 _ _ _ h1 _ _ _ h2
              cases h; exact .inr ⟨h0, _, _, _, _, h1, h2, rfl⟩
        · cases h

/-- The five shapes of a command's writes: one big register, one point register, bytes of OBUF, or a register
loaded from IBUF. -/
theorem ruleOf_ok (i : Instr) (s u : State) (h : ruleOf i s = .ok u) :
    (∃ d v, u = s.setBig d v) ∨ (∃ d P, u = s.setPoint d P) ∨ (∃ l, s.store l = .ok u ∧ u = s.emit l) ∨
      (∃ d v c, u = (s.setBig d v).consume c) ∨ (∃ d P c, u = (s.setPoint d P).consume c) := by
  cases i with
  | montmul bd ba bb bn =>
    simp only [ruleOf, montmulRule] at h
    split at h
    · cases h
    · split at h
      · cases h
      · cases h; exact .inl ⟨_, _, rfl⟩
  | modexp bd ba be bn =>
    simp only [ruleOf, modexpRule] at h
    split at h
    · cases h
    · cases h; exact .inl ⟨_, _, rfl⟩
  | modinv bd ba bn =>
    simp only [ruleOf, modinvRule] at h
    split at h
    · cases h
    · split at h
      · cases h
      · cases h; exact .inl ⟨_, _, rfl⟩
  | gcd bd ba bb => cases h; exact .inl ⟨_, _, rfl⟩
  | ldblk bd bn =>
    obtain ⟨-, -, -, rfl⟩ := ldblkRule_ok _ _ _ _ h
    exact .inr (.inr (.inr (.inl ⟨_, _, _, rfl⟩)))
  | rdunit bd =>
    obtain ⟨-, _, _, -, rfl⟩ := rdunitRule_ok _ _ _ h
    exact .inr (.inr (.inr (.inl ⟨_, _, _, rfl⟩)))
  | rdpt pd =>
    obtain ⟨-, -, ⟨-, rfl⟩ | ⟨-, _, _, _, _, -, -, rfl⟩⟩ := rdptRule_ok _ _ _ h <;>
      exact .inr (.inr (.inr (.inr ⟨_, _, _, rfl⟩)))
  | stint bs | wrunit bs | wrpt bs =>
    simp only [ruleOf] at h
    have h0 := h
    rcases s.store_cases _ with ⟨-, h'⟩ | ⟨-, -, h'⟩ | ⟨-, -, h'⟩ <;> rw [h'] at h <;> cases h
    exact .inr (.inr (.inl ⟨_, h0, rfl⟩))
  | padd | pdbl | pmul | pneg =>
    simp only [ruleOf] at h
    rcases pointRule_cases s _ _ _ _ with ⟨-, h'⟩ | ⟨-, -, ⟨f, -, h'⟩ | ⟨P, -, h'⟩⟩ <;> rw [h'] at h <;>
      cases h
    exact .inr (.inl ⟨_, _, rfl⟩)

/-- What no rule of a command writes (30_encoding.md R80, 60_exceptions.md R206). -/
structure RuleKeeps (s u : State) : Prop where
  cfg : u.cfg = s.cfg
  cmd : u.cmd = s.cmd
  busy : u.busy = s.busy
  done : u.done = s.done
  err : u.err = s.err
  hostErr : u.hostErr = s.hostErr
  cause : u.cause = s.cause
  errPos : u.errPos = s.errPos
  ieDone : u.ieDone = s.ieDone
  ieErr : u.ieErr = s.ieErr
  ilen : u.ilen = s.ilen
  ibuf : u.ibuf = s.ibuf
  pending : u.pending = s.pending
  returned : u.returned = s.returned

theorem RuleKeeps.setBig (s : State) (d : BReg) (v : Nat) : RuleKeeps s (s.setBig d v) := by
  constructor <;> rfl

theorem RuleKeeps.setPoint (s : State) (d : PReg) (P : Point) : RuleKeeps s (s.setPoint d P) := by
  constructor <;> simp

theorem RuleKeeps.emit (s : State) (l : List Byte) : RuleKeeps s (s.emit l) := by
  constructor <;> rfl

theorem RuleKeeps.consume (s u : State) (c : Nat) (h : RuleKeeps s u) : RuleKeeps s (u.consume c) := by
  cases h; constructor <;> simpa

theorem ruleOf_keeps (i : Instr) (s u : State) (h : ruleOf i s = .ok u) : RuleKeeps s u := by
  rcases ruleOf_ok i s u h with ⟨_, _, rfl⟩ | ⟨_, _, rfl⟩ | ⟨_, -, rfl⟩ | ⟨_, _, _, rfl⟩ | ⟨_, _, _, rfl⟩
  · exact .setBig ..
  · exact .setPoint ..
  · exact .emit ..
  · exact .consume _ _ _ (.setBig ..)
  · exact .consume _ _ _ (.setPoint ..)

/-! ### The faults a rule raises (60_exceptions.md R217) -/

theorem inverse_error (a m : Nat) (f : CoreFault) (h : inverse a m = .error f) : f = .arithmetic := by
  unfold inverse at h
  dsimp only at h
  split at h <;> cases h
  rfl

theorem pointDouble_error (P : Point) (a p : Nat) (f : CoreFault) (h : pointDouble P a p = .error f) :
    f = .arithmetic := by
  unfold pointDouble at h
  split at h
  · cases h
  · split at h
    · rename_i h1; cases h; exact inverse_error _ _ _ h1
    · cases h

theorem pointAdd_error (P Q : Point) (a p : Nat) (f : CoreFault) (h : pointAdd P Q a p = .error f) :
    f = .arithmetic := by
  unfold pointAdd at h
  split at h
  · cases h
  · cases h
  · split at h
    · exact pointDouble_error _ _ _ _ h
    · split at h
      · cases h
      · split at h
        · rename_i h1; cases h; exact inverse_error _ _ _ h1
        · cases h

theorem mulLoop_error (k a p : Nat) (f : CoreFault) :
    ∀ n i S A, mulLoop k a p n i S A = .error f → f = .arithmetic := by
  intro n
  induction n with
  | zero => intro i S A h; cases h
  | succ n ih =>
    intro i S A h
    simp only [mulLoop] at h
    split at h
    · rename_i h1
      cases h
      split at h1
      · exact pointAdd_error _ _ _ _ _ h1
      · cases h1
    · split at h
      · rename_i h1; cases h; exact pointDouble_error _ _ _ _ h1
      · exact ih _ _ _ h

theorem pointRule_error (s : State) (pd : PReg) (p : Nat) (l : List Point) (res : Except CoreFault Point)
    (f : CoreFault) (hres : ∀ f, res = .error f → f = .arithmetic) (h : pointRule s pd p l res = .error f) :
    f = .invalidParameter ∨ f = .arithmetic := by
  rcases pointRule_cases s pd p l res with ⟨-, h'⟩ | ⟨-, -, ⟨f', hf, h'⟩ | ⟨P, -, h'⟩⟩ <;> rw [h'] at h
  · cases h; exact .inl rfl
  · cases h; exact .inr (hres _ hf)
  · cases h

theorem store_error (s : State) (l : List Byte) (f : CoreFault) (h : s.store l = .error f) :
    f = .invalidParameter ∨ f = .io := by
  rcases s.store_cases l with ⟨-, h'⟩ | ⟨-, -, h'⟩ | ⟨-, -, h'⟩ <;> rw [h'] at h <;> cases h
  · exact .inl rfl
  · exact .inr rfl

/-- The faults of RDUNIT: the pointer check, the parser at IPTR. -/
theorem rdunitRule_error (bd : BReg) (s : State) (f : CoreFault) (h : rdunitRule bd s = .error f) :
    f = .invalidParameter ∨ (∃ q, f = .malformedCiphertext q ∧ s.iptr.toNat ≤ q ∧ q ≤ s.ilen.toNat) ∨
      f = .capacity := by
  unfold rdunitRule at h
  split at h
  · cases h; exact .inl rfl
  · rename_i hp
    have hp := s.pointersOk_iff.1 (by simpa using hp)
    split at h
    · rename_i h1
      cases h
      exact .inr (State.parseUnit_error _ _ _ hp.1 h1)
    · cases h

/-- The faults of RDPT: the pointer check, the flag byte at IPTR, the parser after it. -/
theorem rdptRule_error (pd : PReg) (s : State) (f : CoreFault) (h : rdptRule pd s = .error f) :
    f = .invalidParameter ∨ (∃ q, f = .malformedCiphertext q ∧ s.iptr.toNat ≤ q ∧ q ≤ s.ilen.toNat) ∨
      f = .capacity := by
  unfold rdptRule at h
  split at h
  · cases h; exact .inl rfl
  · rename_i hp
    have hp := s.pointersOk_iff.1 (by simpa using hp)
    refine .inr ?_
    split at h
    · cases h; exact .inl ⟨_, rfl, le_rfl, hp.1⟩
    · rename_i ha
      simp only [State.avail] at ha
      dsimp only at h
      split at h
      · cases h
      · split at h
        · split at h
          · rename_i h1
            cases h
            rcases State.parseUnit_error _ _ _ (by omega) h1 with ⟨q, rfl, hq⟩ | rfl
            · exact .inl ⟨q, rfl, by omega, hq.2⟩
            · exact .inr rfl
          · rename_i h1
            obtain ⟨len, h4, -, -, hl, -, -, rfl⟩ := State.parseUnit_ok _ _ _ _ h1
            split at h
            · rename_i h2
              cases h
              rcases State.parseUnit_error _ _ _ (by omega) h2 with ⟨q, rfl, hq⟩ | rfl
              · exact .inl ⟨q, rfl, by omega, hq.2⟩
              · exact .inr rfl
            · cases h
        · cases h; exact .inl ⟨_, rfl, le_rfl, hp.1⟩

end Sys2Proof.Machine
end

