-- ==== Sys2Proof/Laws/Range.lean ====
section
/-! SUPPORT. Every result fits its register (40_bigint.md R110, 41_ec.md R121): what a rule writes to a big register
is below `2^W`. -/

namespace Sys2Proof.Machine

theorem expLoop_lt (mul : Nat → Nat → Nat) (x e n : Nat) (hmul : ∀ u v, v < n → mul u v < n) (hx : x < n) :
    ∀ count acc, acc < n → expLoop mul x e count acc < n := by
  intro count
  induction count with
  | zero => exact fun _ h => h
  | succ i ih =>
    intro acc h
    simp only [expLoop]
    apply ih
    split
    · exact hmul _ _ hx
    · exact hmul _ _ h

/-- The result of MODEXP is below the modulus (40_bigint.md R100). -/
theorem modExp_lt (W a e n : Nat) (hn : n ≠ 0) : modExp W a e n < n := by
  have hpos : 0 < n := Nat.pos_of_ne_zero hn
  unfold modExp
  split
  · exact montMul_lt _ _ _ _ (by assumption) (Nat.mod_lt _ hpos)
  · exact expLoop_lt _ _ _ _ (fun _ _ _ => Nat.mod_lt _ hpos) (Nat.mod_lt _ hpos) _ _ (Nat.mod_lt _ hpos)

/-- The result of MODINV is below the modulus (40_bigint.md R104). -/
theorem inverse_lt (a m t : Nat) (hm : m ≠ 0) (h : inverse a m = .ok t) : t < m := by
  rcases inverse_cases a m hm with ⟨-, h'⟩ | ⟨-, t', h', hlt, -⟩ <;> rw [h'] at h <;> cases h
  exact hlt

theorem euclid_lt (u v B : Nat) (hu : u < B) (hv : v < B) : euclid u v < B := by
  rw [euclid, gcdLoop_eq v u v le_rfl]
  rcases Nat.eq_zero_or_pos u with rfl | h
  · simpa using hv
  · exact lt_of_le_of_lt (Nat.gcd_le_left v h) hu

/-- A finite result of a doubling is reduced (41_ec.md R125). -/
theorem pointDouble_inRange (P Q : Point) (a p : Nat) (hp : p ≠ 0) (h : pointDouble P a p = .ok Q) :
    inRange p Q = true := by
  unfold pointDouble at h
  split at h
  · cases h; rfl
  · split at h
    · cases h
    · cases h
      simp [inRange, intMod_lt _ _ hp]

/-- A finite result of an addition of reduced points is reduced (41_ec.md R122). -/
theorem pointAdd_inRange (P Q R : Point) (a p : Nat) (hp : p ≠ 0) (hP : inRange p P = true)
    (hQ : inRange p Q = true) (h : pointAdd P Q a p = .ok R) : inRange p R = true := by
  unfold pointAdd at h
  split at h
  · cases h; exact hQ
  · cases h; exact hP
  · split at h
    · exact pointDouble_inRange _ _ _ _ hp h
    · split at h
      · cases h; rfl
      · split at h
        · cases h
        · cases h
          simp [inRange, intMod_lt _ _ hp]

theorem mulLoop_inRange (k a p : Nat) (hp : p ≠ 0) :
    ∀ n i S A R, inRange p S = true → inRange p A = true → mulLoop k a p n i S A = .ok R →
      inRange p R = true := by
  intro n
  induction n with
  | zero => intro i S A R hS _ h; cases h; exact hS
  | succ n ih =>
    intro i S A R hS hA h
    simp only [mulLoop] at h
    split at h
    · cases h
    · rename_i S' h1
      have hS' : inRange p S' = true := by
        split at h1
        · exact pointAdd_inRange _ _ _ _ _ hp hS hA h1
        · cases h1; exact hS
      split at h
      · cases h
      · rename_i A' h2
        exact ih _ _ _ _ hS' (pointDouble_inRange _ _ _ _ hp h2) h

theorem pointNeg_inRange (P : Point) (p : Nat) (hp : p ≠ 0) (hP : inRange p P = true) :
    inRange p (pointNeg P p) = true := by
  cases P with
  | inf => rfl
  | finite x y =>
    simp only [inRange, Bool.and_eq_true, decide_eq_true_eq] at hP
    simpa [inRange, pointNeg, hP.1] using Nat.mod_lt _ (Nat.pos_of_ne_zero hp)

/-- A block is below its modulus (42_codec.md R143). -/
theorem blockValue_lt (l : List Byte) (m : Nat) (hm : m ≠ 0) (h : l.length ≤ blockLength m) :
    beValue l < m := by
  refine lt_of_lt_of_le (beValue_lt l) (le_trans ?_ (two_pow_le_of_pos m hm))
  rw [show (256 : Nat) = 2 ^ 8 by norm_num, ← pow_mul]
  exact Nat.pow_le_pow_right (by norm_num) (by unfold blockLength at h; omega)

/-- Writing a big register keeps every register below `2^W`. -/
theorem RegsFit_setBig (s : State) (d : BReg) (v : Nat) (hs : ∀ i, s.big i < 2 ^ s.cfg.width)
    (hv : v < 2 ^ s.cfg.width) (i : BReg) : (s.setBig d v).big i < 2 ^ s.cfg.width := by
  rw [State.big_setBig]
  split
  · exact hv
  · exact hs i

/-- Writing a point keeps every register below `2^W`. -/
theorem RegsFit_setPoint (s : State) (d : PReg) (P : Point) (hs : ∀ i, s.big i < 2 ^ s.cfg.width)
    (hP : inRange (2 ^ s.cfg.width) P = true) (i : BReg) : (s.setPoint d P).big i < 2 ^ s.cfg.width := by
  have hpos : 0 < 2 ^ s.cfg.width := by positivity
  rw [State.big_setPoint]
  cases P with
  | inf => split_ifs <;> first | exact hpos | exact hs i
  | finite x y =>
    simp only [inRange, Bool.and_eq_true, decide_eq_true_eq] at hP
    split_ifs
    · exact hP.2
    · exact hP.1
    · exact hs i

theorem inRange_mono (p q : Nat) (P : Point) (hpq : p ≤ q) (h : inRange p P = true) : inRange q P = true := by
  cases P with
  | inf => rfl
  | finite x y =>
    simp only [inRange, Bool.and_eq_true, decide_eq_true_eq] at h ⊢
    omega

/-- A point command's rule writes a reduced point, when its computation answers one. -/
theorem pointRule_ok (s u : State) (pd : PReg) (p : Nat) (l : List Point) (res : Except CoreFault Point)
    (h : pointRule s pd p l res = .ok u) :
    p ≠ 0 ∧ l.all (inRange p) = true ∧ ∃ P, res = .ok P ∧ u = s.setPoint pd P := by
  rcases pointRule_cases s pd p l res with ⟨-, h'⟩ | ⟨hp, hl, ⟨f', hf, h'⟩ | ⟨P, hP, h'⟩⟩ <;> rw [h'] at h <;>
    cases h
  exact ⟨hp, hl, P, hP, rfl⟩

/-- Every rule keeps every register below `2^W` (40_bigint.md R110). -/
theorem ruleOf_fits (i : Instr) (s u : State) (hs : ∀ i, s.big i < 2 ^ s.cfg.width) (h : ruleOf i s = .ok u)
    (j : BReg) : u.big j < 2 ^ s.cfg.width := by
  cases i with
  | montmul bd ba bb bn =>
    simp only [ruleOf, montmulRule] at h
    split at h
    · cases h
    · split at h
      · cases h
      · cases h
        exact RegsFit_setBig s _ _ hs (lt_trans (montMul_lt _ _ _ _ (by omega) (by omega)) (hs bn)) j
  | modexp bd ba be bn =>
    simp only [ruleOf, modexpRule] at h
    split at h
    · cases h
    · cases h
      exact RegsFit_setBig s _ _ hs (lt_trans (modExp_lt _ _ _ _ (by assumption)) (hs bn)) j
  | modinv bd ba bn =>
    simp only [ruleOf, modinvRule] at h
    split at h
    · cases h
    · split at h
      · cases h
      · rename_i h1
        cases h
        exact RegsFit_setBig s _ _ hs (lt_trans (inverse_lt _ _ _ (by assumption) h1) (hs bn)) j
  | gcd bd ba bb => cases h; exact RegsFit_setBig s _ _ hs (euclid_lt _ _ _ (hs ba) (hs bb)) j
  | padd pd pa pb bA bn =>
    obtain ⟨hp, hl, P, hP, rfl⟩ := pointRule_ok _ _ _ _ _ _ h
    simp only [List.all_cons, List.all_nil, Bool.and_true, Bool.and_eq_true] at hl
    exact RegsFit_setPoint s _ _ hs
      (inRange_mono _ _ _ (hs bn).le (pointAdd_inRange _ _ _ _ _ hp hl.1 hl.2 hP)) j
  | pdbl pd pa bA bn =>
    obtain ⟨hp, hl, P, hP, rfl⟩ := pointRule_ok _ _ _ _ _ _ h
    exact RegsFit_setPoint s _ _ hs (inRange_mono _ _ _ (hs bn).le (pointDouble_inRange _ _ _ _ hp hP)) j
  | pmul pd pa bk bA bn =>
    obtain ⟨hp, hl, P, hP, rfl⟩ := pointRule_ok _ _ _ _ _ _ h
    simp only [List.all_cons, List.all_nil, Bool.and_true] at hl
    exact RegsFit_setPoint s _ _ hs
      (inRange_mono _ _ _ (hs bn).le (mulLoop_inRange _ _ _ hp _ _ _ _ _ rfl hl hP)) j
  | pneg pd pa bn =>
    simp only [ruleOf] at h
    obtain ⟨hp, hl, P, hP, rfl⟩ := pointRule_ok _ _ _ _ _ _ h
    simp only [List.all_cons, List.all_nil, Bool.and_true] at hl
    cases hP
    exact RegsFit_setPoint s _ _ hs (inRange_mono _ _ _ (hs bn).le (pointNeg_inRange _ _ hp hl)) j
  | ldblk bd bn =>
    obtain ⟨-, hm, -, rfl⟩ := ldblkRule_ok _ _ _ _ h
    exact RegsFit_setBig s _ _ hs (lt_trans (blockValue_lt _ _ hm (by simp)) (hs bn)) j
  | rdunit bd =>
    obtain ⟨-, v, n, hv, rfl⟩ := rdunitRule_ok _ _ _ h
    obtain ⟨-, -, -, -, -, -, hlt, -⟩ := State.parseUnit_ok _ _ _ _ hv
    exact RegsFit_setBig s _ _ hs hlt j
  | rdpt pd =>
    obtain ⟨-, -, ⟨-, rfl⟩ | ⟨-, x, y, n1, n2, hx, hy, rfl⟩⟩ := rdptRule_ok _ _ _ h
    · exact RegsFit_setPoint s _ _ hs rfl j
    · obtain ⟨-, -, -, -, -, -, hx, -⟩ := State.parseUnit_ok _ _ _ _ hx
      obtain ⟨-, -, -, -, -, -, hy, -⟩ := State.parseUnit_ok _ _ _ _ hy
      exact RegsFit_setPoint s _ _ hs (by simp [inRange, hx, hy]) j
  | stint bs | wrunit bs | wrpt bs =>
    simp only [ruleOf] at h
    rcases s.store_cases _ with ⟨-, h'⟩ | ⟨-, -, h'⟩ | ⟨-, -, h'⟩ <;> rw [h'] at h <;> cases h
    exact hs j

/-- Every rule leaves OBUF as it was, or appends bytes that fit (42_codec.md R140, R141). -/
theorem ruleOf_obuf (i : Instr) (s u : State) (h : ruleOf i s = .ok u) :
    u.obuf = s.obuf ∨
      ∃ l, s.optr.toNat + l.length ≤ s.cfg.obytes ∧ u.obuf = s.obuf.writeBytes s.optr.toNat l := by
  rcases ruleOf_ok i s u h with ⟨_, _, rfl⟩ | ⟨_, _, rfl⟩ | ⟨l, hl, rfl⟩ | ⟨_, _, _, rfl⟩ | ⟨_, _, _, rfl⟩
  · exact .inl rfl
  · exact .inl (by simp)
  · refine .inr ⟨l, ?_, rfl⟩
    rcases s.store_cases l with ⟨-, h'⟩ | ⟨-, -, h'⟩ | ⟨hp, hr, -⟩
    · rw [h'] at hl; cases hl
    · rw [h'] at hl; cases hl
    · have := (s.pointersOk_iff.1 hp).2.2
      unfold State.room at hr
      omega
  · exact .inl rfl
  · exact .inl (by simp)

end Sys2Proof.Machine
end

