-- ==== Sys2Proof/Tests/Slice0.lean ====
section
/-! SUPPORT. Tests: ill-formed terms refused, words written out from 30_encoding.md, single steps with the results of
95_test_vectors.md, and for every obligation with hypotheses a concrete state that meets them. -/

namespace Sys2Proof.Tests

open Sys2Proof Sys2Proof.Machine Sys2Proof.Claims

-- One theorem after another: many `decide +kernel` at once need a thread (and its stack) each.
set_option Elab.async false

/-! ### Well-formedness: a point field of 8 to 15 is refused -/

theorem test_wellFormed_padd_pd : (Instr.padd 8 0 1 12 13).wellFormed = false := by decide
theorem test_wellFormed_padd_pa : (Instr.padd 0 15 1 12 13).wellFormed = false := by decide
theorem test_wellFormed_padd_pb : (Instr.padd 0 1 8 12 13).wellFormed = false := by decide
theorem test_wellFormed_pdbl_pd : (Instr.pdbl 8 0 12 13).wellFormed = false := by decide
theorem test_wellFormed_pdbl_pa : (Instr.pdbl 0 8 12 13).wellFormed = false := by decide
theorem test_wellFormed_pmul_pd : (Instr.pmul 9 0 14 12 13).wellFormed = false := by decide
theorem test_wellFormed_pmul_pa : (Instr.pmul 0 8 14 12 13).wellFormed = false := by decide
theorem test_wellFormed_pneg_pd : (Instr.pneg 8 0 13).wellFormed = false := by decide
theorem test_wellFormed_pneg_pa : (Instr.pneg 0 8 13).wellFormed = false := by decide
theorem test_wellFormed_wrpt_ps : (Instr.wrpt 8).wellFormed = false := by decide
theorem test_wellFormed_rdpt_pd : (Instr.rdpt 8).wellFormed = false := by decide
theorem test_wellFormed_accepts : (Instr.padd 7 7 7 15 15).wellFormed = true := by decide

/-! ### Decoding: words written out from the fields of R70, R72, R73 and the programs of 95_test_vectors.md -/

theorem test_decode_montmul : decode 0b00000001_0011_0000_0001_0010_0000_0000 = .ok (.montmul 3 0 1 2) := by decide
theorem test_decode_modexp : decode 0b00000010_0101_0100_0000_0011_0000_0000 = .ok (.modexp 5 4 0 3) := by decide
theorem test_decode_modinv : decode 0b00000011_0010_0000_0001_0000_0000_0000 = .ok (.modinv 2 0 1) := by decide
theorem test_decode_gcd : decode 0b00000100_0010_0000_0001_0000_0000_0000 = .ok (.gcd 2 0 1) := by decide
theorem test_decode_padd : decode 0b00010000_0101_0100_0011_1100_1101_0000 = .ok (.padd 5 4 3 12 13) := by decide
theorem test_decode_pdbl : decode 0b00010001_0001_0000_1100_1101_0000_0000 = .ok (.pdbl 1 0 12 13) := by decide
theorem test_decode_pmul : decode 0b00010010_0011_0001_1111_1100_1101_0000 = .ok (.pmul 3 1 15 12 13) := by decide
theorem test_decode_pneg : decode 0b00010011_0010_0001_1101_0000_0000_0000 = .ok (.pneg 2 1 13) := by decide
theorem test_decode_ldblk : decode 0b00100000_0100_0011_0000_0000_0000_0000 = .ok (.ldblk 4 3) := by decide
theorem test_decode_stint : decode 0b00100001_0101_0000_0000_0000_0000_0000 = .ok (.stint 5) := by decide
theorem test_decode_wrunit : decode 0b00100010_1100_0000_0000_0000_0000_0000 = .ok (.wrunit 12) := by decide
theorem test_decode_rdunit : decode 0b00100011_0100_0000_0000_0000_0000_0000 = .ok (.rdunit 4) := by decide
theorem test_decode_wrpt : decode 0b00100100_0101_0000_0000_0000_0000_0000 = .ok (.wrpt 5) := by decide
theorem test_decode_rdpt : decode 0b00100101_0001_0000_0000_0000_0000_0000 = .ok (.rdpt 1) := by decide

/-- V-ENC-1 to V-ENC-10: the words that are no commands. -/
theorem test_decode_rejects :
    decode 0x00000000 = .error .unknownOp ∧ decode 0x05000000 = .error .unknownOp ∧
    decode 0xFFFFFFFF = .error .nonzeroZ ∧ decode 0x01301201 = .error .nonzeroZ ∧
    decode 0x01301210 = .error .unusedField ∧ decode 0x03201100 = .error .unusedField ∧
    decode 0x20430100 = .error .unusedField ∧ decode 0x21510000 = .error .unusedField ∧
    decode 0x10801CD0 = .error .pointField ∧ decode 0x24800000 = .error .pointField := by decide

theorem test_decodeTableWord :
    decodeTableWord 32 0x02540300 = some (.modexp 5 4 0 3) ∧ decodeTableWord 32 0 = none ∧
      decodeTableWord 64 0x02540300 = none := by decide

theorem test_encode : encode (.pmul 3 1 15 12 13) = 0x1231FCD0 ∧ encode (.rdpt 1) = 0x25100000 := by decide

/-! ### Small states -/

/-- The reset state with some big registers loaded. -/
def load (l : List (BReg × Nat)) : State := l.foldl (fun s p => s.setBig p.1 p.2) State.reset

/-- The state with a stream at offset 0 of IBUF. -/
def stream (l : List Byte) (s : State) : State :=
  { s with ibuf := s.ibuf.writeBytes 0 l, ilen := BitVec.ofNat 32 l.length }

/-- The state of an instance with an OBUF of `n` bytes, with OPTR at `p`. -/
def room (n : Nat) (p : Word) (s : State) : State := { s with cfg := { s.cfg with obytes := n }, optr := p }

/-- The next state of an answer. -/
def got : Host.Outcome State Fault Refusal → State
  | .next t => t
  | .fault _ => State.reset
  | .refused _ => State.reset

/-- The state after the word `w` has been accepted and run. -/
def ran (w : Word) (s : State) : State := got (step (s.withFetchWord 32 w.toNat))

/-- The state after one host access. -/
def hit (e : Event) (s : State) : State := got (after s e)

/-- The first `n` bytes of OBUF. -/
def out (n : Nat) (s : State) : List Byte := s.obuf.readBytes 0 n

/-- The document's curve: `p0 = (0, 1)`, `p1 = (188, 93)`, `b12 = 750`, `b13 = 751`, `b14 = 13`. -/
def curve : State := load [(1, 1), (2, 188), (3, 93), (12, 750), (13, 751), (14, 13)]

/-! ### One command (95_test_vectors.md, part 2) -/

/-- V-MM-7. -/
theorem test_montmul : (ran 0x01301200 (load [(0, 3), (1, 4), (2, 7)])).big 3 = 3 := by decide +kernel
/-- V-MM-14: `a >= n`. -/
theorem test_montmul_inval : (ran 0x01301200 (load [(0, 13), (1, 5), (2, 13)])).cause = 2 := by decide +kernel
/-- V-ME-3: odd modulus. -/
theorem test_modexp_odd : (ran 0x02540300 (load [(4, 65), (0, 17), (3, 3233)])).big 5 = 2790 := by decide +kernel
/-- V-ME-11: even modulus. -/
theorem test_modexp_even : (ran 0x02540300 (load [(4, 7), (0, 5), (3, 10)])).big 5 = 7 := by decide +kernel
/-- V-MI-1. -/
theorem test_modinv : (ran 0x03201000 (load [(0, 17), (1, 3120)])).big 2 = 2753 := by decide +kernel
/-- V-MI-7. -/
theorem test_modinv_arith : (ran 0x03201000 (load [(0, 6), (1, 9)])).cause = 1 := by decide +kernel
/-- V-GCD-1. -/
theorem test_gcd : (ran 0x04201000 (load [(0, 12), (1, 18)])).big 2 = 6 := by decide +kernel
/-- V-GCD-3. -/
theorem test_gcd_zero : (ran 0x04201000 (load [(0, 0), (1, 5)])).big 2 = 5 := by decide +kernel
/-- V-EC-22: the destination overlaps the curve registers. -/
theorem test_padd : (ran 0x10601CD0 curve).point 6 = .finite 56 419 := by decide +kernel
/-- V-EC-3: the vertical line. -/
theorem test_padd_inf : (ran 0x10201CD0 ((curve.setBig 2 0).setBig 3 750)).point 2 = .inf := by decide +kernel
/-- V-EC-1. -/
theorem test_pdbl : (ran 0x1120CD00 curve).point 2 = .finite 188 93 := by decide +kernel
/-- V-EC-6: `y = 0`. -/
theorem test_pdbl_arith : (ran 0x1120CD00 (curve.setBig 1 0)).cause = 1 := by decide +kernel
/-- V-EC-13. -/
theorem test_pmul : (ran 0x1220ECD0 curve).point 2 = .finite 283 493 := by decide +kernel
/-- V-EC-17: the trailing doubling. -/
theorem test_pmul_arith : (ran 0x1220ECD0 (((curve.setBig 0 5).setBig 1 0).setBig 14 1)).cause = 1 := by
  decide +kernel
/-- V-EC-20. -/
theorem test_pneg : (ran 0x1320D000 curve).point 2 = .finite 0 750 := by decide +kernel
/-- V-EC-20: a coordinate of `p` or more. -/
theorem test_pneg_inval : (ran 0x1320D000 ((curve.setBig 0 7).setBig 1 751)).cause = 2 := by decide +kernel
/-- V-CD-6: the destination is the modulus. -/
theorem test_ldblk :
    let t := ran 0x20330000 (stream [0xFF, 0xFF, 0xFF, 0x01] (load [(3, 4294967295)]))
    t.big 3 = 16777215 ∧ t.cnt = 3 ∧ t.iptr = 3 := by decide +kernel
/-- V-CD-7: the end of the stream is no fault. -/
theorem test_ldblk_end :
    let t := ran 0x20430000 { stream [1, 2, 3] (load [(3, 3233)]) with iptr := 3 }
    t.big 4 = 0 ∧ t.cnt = 0 ∧ t.done = true := by decide +kernel
/-- V-CD-14: an exact fit. -/
theorem test_stint :
    let t := ran 0x21500000 (room 8 4 (load [(5, 0xAABBCCDD)]))
    out 8 t = [0, 0, 0, 0, 0xAA, 0xBB, 0xCC, 0xDD] ∧ t.optr = 8 := by decide +kernel
/-- V-CD-15: no room for one byte. -/
theorem test_stint_io : (ran 0x21500000 (room 8 8 (load []))).cause = 4 := by decide +kernel
/-- P2, first pass. -/
theorem test_wrunit : out 6 (ran 0x22500000 (load [(5, 3000)])) = [0, 0, 0, 2, 0x0B, 0xB8] := by decide +kernel
/-- V-CD-13. -/
theorem test_wrunit_io :
    let t := ran 0x22500000 (room 8 1 (load [(5, 0xAABBCCDD)]))
    t.cause = 4 ∧ t.optr = 1 ∧ out 8 t = [0, 0, 0, 0, 0, 0, 0, 0] := by decide +kernel
/-- V-CD-24: leading zero bytes are read, the value fits. -/
theorem test_rdunit :
    let t := ran 0x23400000 (stream [0, 0, 0, 5, 0, 0xFF, 0xFF, 0xFF, 0xFF] (load []))
    t.big 4 = 4294967295 ∧ t.cnt = 9 := by decide +kernel
/-- V-CD-19. -/
theorem test_rdunit_malformed :
    let t := ran 0x23400000 (stream [0, 0, 0, 2, 1] (load []))
    t.cause = 3 ∧ t.errPos = 4 := by decide +kernel
/-- V-CD-35: a finite point. -/
theorem test_wrpt :
    let t := ran 0x24200000 (load [(4, 425), (5, 663)])
    out 13 t = [0, 0, 0, 0, 2, 0x01, 0xA9, 0, 0, 0, 2, 0x02, 0x97] ∧ t.cnt = 13 := by decide +kernel
/-- V-CD-35: the point at infinity is one byte. -/
theorem test_wrpt_inf :
    let t := ran 0x24300000 { load [(6, 77)] with pinf := 8 }
    out 2 t = [1, 0] ∧ t.cnt = 1 ∧ t.big 6 = 77 := by decide +kernel
/-- V-CD-31. -/
theorem test_rdpt :
    let t := ran 0x25100000 (stream [0, 0, 0, 0, 1, 5, 0, 0, 0, 1, 7] (load []))
    t.point 1 = .finite 5 7 ∧ t.cnt = 11 := by decide +kernel
/-- V-CD-33: the first unit is parsed completely before the second is looked at. -/
theorem test_rdpt_capacity :
    (ran 0x25100000 (stream [0, 0, 0, 0, 5, 1, 0, 0, 0, 0, 0, 0] (load []))).cause = 6 := by decide +kernel
/-- V-ENC-4: a word that is no command. -/
theorem test_unsupported :
    let t := ran 0x01301201 (load [(0, 3)])
    t.cause = 5 ∧ t.err = true ∧ t.errPos = 0 ∧ t.big 0 = 3 := by decide +kernel

/-! ### The host's window (95_test_vectors.md, part 2.7) -/

/-- An instance with `W = 64`. -/
def wide : State := State.resetWith { width := 64, ibytes := 64, obytes := 64 }

/-- V-HOST-2. -/
theorem test_limbs :
    (hit (.write 0x1604 4 0x01234567) (hit (.write 0x1600 4 0x89ABCDEF) wide)).big 3 = 0x0123456789ABCDEF := by
  decide +kernel
/-- V-HOST-3. -/
theorem test_unmapped_limb :
    (hit (.read 0x1608 4) wide).hostErr = true ∧ (hit (.read 0x1608 4) wide).returned = [0] := by decide +kernel
/-- V-HOST-4. -/
theorem test_byte_lanes :
    (hit (.write 0x4000 4 0x00216948) wide).ibuf.readBytes 0 4 = [0x48, 0x69, 0x21, 0x00] := by decide +kernel
/-- V-HOST-6, V-HOST-8. -/
theorem test_refused :
    (hit (.write 0x4001 1 0) wide).hostErr = true ∧ (hit (.read 0x0006 4) wide).hostErr = true ∧
      (hit (.read 0x0034 4) wide).hostErr = true ∧ (hit (.read 0xC000 4) wide).hostErr = true := by decide +kernel
/-- V-HOST-1. -/
theorem test_width : (hit (.read 0x0028 4) wide).returned = [64] := by decide +kernel
/-- STATUS, CAUSE and ERRPOS of a stream malformed at offset 4, at their offsets of R51. -/
theorem test_fault_words :
    let s := { wide.faultEntry (.malformedCiphertext 4) with hostErr := true }
    (hit (.read 0x04 4) s).returned = [12] ∧ (hit (.read 0x08 4) s).returned = [3] ∧
      (hit (.read 0x0C 4) s).returned = [4] := by decide +kernel
/-- V-HOST-9: while BUSY the status can be read, a register cannot. -/
theorem test_busy :
    let s := hit (.write 0 4 0x04201000) wide
    (hit (.read 4 4) s).returned = [1] ∧ (hit (.read 0x1000 4) s).hostErr = true ∧
      (hit (.write 0 4 0) s).hostErr = true ∧ (hit (.write 0x10 4 1) s).busy = false := by decide +kernel
/-- V-HOST-12, V-HOST-13. -/
theorem test_ctrl_pinf :
    (hit (.write 0x10 4 7) wide).ctrlWord = 0 ∧ (hit (.write 0x10 4 6) wide).ctrlWord = 6 ∧
      (hit (.read 0x14 4) (hit (.write 0x14 4 0xFFFFFFFF) wide)).returned = [0xFF] := by decide +kernel

/-! ### Witnesses: for each obligation with hypotheses, states and operands that meet them, clause by clause -/

theorem got_exec (i : Instr) (s : State) : exec i s = .next (got (exec i s)) := by
  obtain ⟨t, ht⟩ := (exec_eq i s).symm ▸ State.complete_next s i (ruleOf i s)
  rw [ht]
  rfl

/-- The state with the word `w` accepted and nothing pending. -/
def accepted (w : Word) (s : State) : State := s.acceptCommand w

/-- A faulted state. -/
def broken : State := State.reset.faultEntry .arithmetic

theorem load_inv : (load [(2, 188), (3, 93), (5, 3000), (8, 4294967295)]).Inv where
  legal := by decide
  regs := by decide +kernel
  status := by decide
  cause := by decide
  buffers := by decide

theorem witness_DecodeEncode :
    (Instr.padd 7 7 7 15 15).wellFormed = true ∧ (Instr.rdpt 0).wellFormed = true := by decide

theorem witness_EncodeDecode : decode 0x10777FF0 = .ok (.padd 7 7 7 15 15) := by decide

theorem witness_OpcodeMapExact :
    ⟨"PADD", 0x10000000, 0xFF88800F⟩ ∈ opcodeMap ∧ (0x10777FF0 : Word) &&& 0xFF88800F = 0x10000000 := by decide

theorem witness_StepRunsCommand :
    let s := accepted 0x04201000 State.reset
    let u := accepted 0x01301201 State.reset
    (s.busy = true ∧ decode s.cmd = .ok (.gcd 2 0 1) ∧ s.pending = []) ∧
      (u.busy = true ∧ decode u.cmd = .error .nonzeroZ) ∧ State.reset.busy = false := by decide

theorem witness_PlacedWordRuns : decode 0x04201000 = .ok (.gcd 2 0 1) := by decide

theorem witness_UnsupportedExactly_unsupported :
    let s := accepted 0x10801CD0 State.reset
    s.busy = true ∧ s.err = false ∧ ∀ r ∈ opcodeMap, s.cmd &&& r.mask ≠ r.pattern := by decide

/-- MONTMUL with a zero modulus faults, with another code. -/
theorem witness_UnsupportedExactly_command :
    let s := accepted 0x01301200 State.reset
    s.busy = true ∧ s.err = false ∧
      (∃ r ∈ opcodeMap, s.cmd &&& r.mask = r.pattern) ∧
      ∃ t, after s .sequencer = .next t ∧ t.err = true :=
  ⟨rfl, rfl, by decide, _, rfl, by decide +kernel⟩

theorem witness_BusyComesToRest :
    let s := { accepted 0x04201000 State.reset with pending := [.read 4 4] }
    s.busy = true ∧ s.pending.length = 1 := by decide

theorem witness_MontmulMeaning_inval :
    (load [(2, 12)]).big 2 % 2 = 0 ∧
      (let s := load [(0, 13), (1, 12), (2, 13)]
       s.big 2 % 2 = 1 ∧ (s.big 2 ≤ s.big 0 ∨ s.big 2 ≤ s.big 1)) := by decide

theorem witness_MontmulMeaning_completes :
    let s := load [(0, 12), (1, 12), (2, 13)]
    s.big 2 % 2 = 1 ∧ s.big 0 < s.big 2 ∧ s.big 1 < s.big 2 ∧ s.RegsFit := by decide +kernel

/-- P8's first product: `2^64 mod 23 = 6`. -/
theorem witness_PlainProductByMontmul :
    let s := load [(0, 6), (1, 9), (2, 23), (3, 6)]
    s.RegsFit ∧ s.big 2 % 2 = 1 ∧ s.big 0 < s.big 2 ∧ s.big 1 < s.big 2 ∧
      s.big 3 = 2 ^ (2 * s.cfg.width) % s.big 2 ∧ (4 : BReg) ≠ 1 ∧ (4 : BReg) ≠ 2 := by decide +kernel

theorem witness_ModexpMeaning :
    (load []).big 3 = 0 ∧ (let s := load [(3, 1)]; s.big 3 ≠ 0 ∧ s.RegsFit) := by decide +kernel

theorem witness_ModinvMeaning :
    (load []).big 1 = 0 ∧
      (let s := load [(0, 6), (1, 9)]; s.big 1 ≠ 0 ∧ Nat.gcd (s.big 0) (s.big 1) ≠ 1) ∧
      (let s := load [(0, 0), (1, 1)]; s.big 1 ≠ 0 ∧ Nat.gcd (s.big 0) (s.big 1) = 1) := by decide +kernel

theorem curve_p0 : curve.point 0 = .finite 0 1 := by decide

theorem curve_p1 : curve.point 1 = .finite 188 93 := by decide

theorem curve_b13 : curve.big 13 = 751 := by decide

/-- `p = 0`, and a coordinate equal to `p`. -/
theorem witness_point_inval :
    (load []).big 13 = 0 ∧
      (let s := load [(1, 751), (13, 751)]; ¬InRange (s.big 13) (s.point 0)) := by
  refine ⟨by decide, fun h => ?_⟩
  have : 751 < 751 := h.2
  omega

theorem witness_PaddMeaning :
    (0 : PReg).toNat < 8 ∧ (7 : PReg).toNat < 8 ∧ curve.big 13 ≠ 0 ∧ InRange (curve.big 13) (curve.point 0) ∧
      InRange (curve.big 13) (curve.point 1) := by
  rw [curve_p0, curve_p1, curve_b13]
  refine ⟨by decide, by decide, by decide, ?_, ?_⟩ <;> constructor <;> decide

theorem witness_PdblMeaning :
    (7 : PReg).toNat < 8 ∧ (0 : PReg).toNat < 8 ∧ curve.big 13 ≠ 0 ∧ InRange (curve.big 13) (curve.point 0) :=
  ⟨by decide, by decide, by decide, witness_PaddMeaning.2.2.2.1⟩

theorem witness_DoubleOfOrderTwoFaults :
    let s := load [(0, 1), (13, 2)]
    s.point 0 = .finite 1 0 ∧ 1 < s.big 13 ∧ 1 < s.big 13 := by decide

theorem witness_PmulMeaning :
    (7 : PReg).toNat < 8 ∧ (0 : PReg).toNat < 8 ∧ curve.big 13 ≠ 0 ∧ InRange (curve.big 13) (curve.point 0) :=
  witness_PdblMeaning

theorem witness_PnegMeaning :
    (let s := { load [(13, 1)] with pinf := 1 }; s.big 13 ≠ 0 ∧ s.point 0 = .inf) ∧
      (let s := load [(13, 1)]; s.point 0 = .finite 0 0 ∧ 0 < s.big 13 ∧ 0 < s.big 13) := by decide

theorem witness_PrimeFieldCompletes :
    (curve.big 13).Prime ∧ curve.big 13 ≠ 2 ∧ InRange (curve.big 13) (curve.point 0) ∧
      InRange (curve.big 13) (curve.point 1) ∧
      (∀ x, ¬(curve.point 0 = .finite x 0 ∧ curve.point 1 = .finite x 0)) ∧
      (∀ x, curve.point 0 ≠ .finite x 0) ∧ curve.big 11 = 0 ∧ curve.big 1 = 1 := by
  obtain ⟨-, -, -, h0, h1⟩ := witness_PaddMeaning
  refine ⟨?_, by decide, h0, h1, ?_, ?_, by decide, by decide⟩
  · rw [curve_b13]; norm_num
  · rw [curve_p0]; simp
  · rw [curve_p0]; simp

theorem witness_PointPlusNegation :
    (2 : PReg) ≠ 1 ∧ (13 : BReg).toNat ≠ 2 * (2 : PReg).toNat ∧ (13 : BReg).toNat ≠ 2 * (2 : PReg).toNat + 1 ∧
      curve.point 1 = .finite 188 93 ∧ 188 < curve.big 13 ∧ 93 < curve.big 13 ∧ 93 ≠ 0 ∧
      2 * 93 ≠ curve.big 13 := by decide

/-- The pointer check fails (IPTR past ILEN, ILEN past IBYTES, OPTR past OBYTES, V-CD-8) and holds at its bounds. -/
theorem witness_PointersOk :
    (¬PointersOk { load [] with iptr := 5, ilen := 4 }) ∧ (¬PointersOk { load [] with ilen := 65 }) ∧
      (¬PointersOk (room 64 65 (load []))) ∧
      PointersOk { load [] with iptr := 64, ilen := 64, optr := 64 } := by
  unfold PointersOk
  decide

theorem witness_LdblkMeaning :
    (load [(3, 255)]).big 3 < 256 ∧
      (let s := stream [0x41] (load [(3, 256)]); PointersOk s ∧ 256 ≤ s.big 3) := by
  unfold PointersOk
  decide

theorem witness_BlockBelowModulus :
    let s := stream [0xFF, 0xFF] (load [(3, 65536)])
    PointersOk s ∧ 256 ≤ s.big 3 := by
  unfold PointersOk
  decide

theorem witness_MagnitudeAndUnit : Config.vectors.Legal ∧ 4294967295 < 2 ^ Config.vectors.width := by decide

/-- V-CD-2: `MAG(0)` is one byte. -/
theorem isMag_zero : IsMag 0 [0] :=
  ⟨by decide, by decide, fun l' _ h => List.length_pos_iff.2 h⟩

theorem isUnit_zero : IsUnit 0 [0, 0, 0, 1, 0] := ⟨[0, 0, 0, 1], [0], isMag_zero, rfl, by decide, rfl⟩

/-- A store that fits, at the last place, and one that does not. -/
theorem witness_StintMeaning :
    (load []).cfg.Legal ∧ (load []).obuf.Wf ∧ IsMag ((load []).big 5) [0] ∧
      (PointersOk (room 8 7 (load [])) ∧ [(0 : Byte)].length ≤ 8 - 7) ∧
      (PointersOk (room 8 8 (load [])) ∧ 8 - 8 < [(0 : Byte)].length) := by
  unfold PointersOk
  exact ⟨by decide, by decide, isMag_zero, by decide, by decide⟩

theorem witness_WrunitMeaning :
    (load []).cfg.Legal ∧ (load []).obuf.Wf ∧ IsUnit ((load []).big 5) [0, 0, 0, 1, 0] ∧
      PointersOk (room 8 3 (load [])) ∧ PointersOk (room 8 4 (load [])) := by
  unfold PointersOk
  exact ⟨by decide, by decide, isUnit_zero, by decide, by decide⟩

theorem witness_WrptMeaning :
    (7 : PReg).toNat < 8 ∧ (load []).cfg.Legal ∧ (load []).obuf.Wf ∧
      IsPointBytes ({ load [] with pinf := 8 }.point 3) [0x01] ∧
      IsPointBytes ((load []).point 2) [0, 0, 0, 0, 1, 0, 0, 0, 0, 1, 0] :=
  ⟨by decide, by decide, by decide, rfl, _, _, isUnit_zero, isUnit_zero, rfl⟩

/-- The faults of the parser and its success at the end of the stream: V-CD-17, V-CD-20, V-CD-19, V-CD-23,
V-CD-22. -/
theorem witness_RdunitMeaning :
    parse (stream [0, 0, 0] (load [])) 0 = .error (3, 0) ∧
      parse (stream [0x80, 0, 0, 0] (load [])) 0 = .error (3, 0) ∧
      parse (stream [0, 0, 0, 2, 1] (load [])) 0 = .error (3, 4) ∧
      parse (stream [0, 0, 0, 5, 1, 0, 0, 0, 0] (load [])) 0 = .error (6, 0) ∧
      parse (stream [0, 0, 0, 3, 0, 0, 7] (load [])) 0 = .ok (7, 7) ∧
      PointersOk (stream [0, 0, 0, 3, 0, 0, 7] (load [])) := by
  refine ⟨by decide +kernel, by decide +kernel, by decide +kernel, by decide +kernel, by decide +kernel, ?_⟩
  unfold PointersOk
  decide

/-- V-CD-27, V-CD-28, V-CD-29, V-CD-30, V-CD-31. -/
theorem witness_RdptMeaning :
    (7 : PReg).toNat < 8 ∧ (stream [] (load [])).ilen.toNat = (stream [] (load [])).iptr.toNat ∧
      (stream [2] (load [])).ibuf.read 0 = 2 ∧ (stream [1] (load [])).ibuf.read 0 = 0x01 ∧
      parse (stream [0] (load [])) 1 = .error (3, 1) ∧
      parse (stream [0, 0, 0, 0, 1, 5, 0, 0, 0, 1] (load [])) 6 = .error (3, 10) ∧
      parse (stream [0, 0, 0, 0, 1, 5, 0, 0, 0, 1, 7] (load [])) 1 = .ok (5, 6) ∧
      parse (stream [0, 0, 0, 0, 1, 5, 0, 0, 0, 1, 7] (load [])) 6 = .ok (7, 11) := by
  refine ⟨by decide, by decide, by decide, by decide, ?_, ?_, ?_, ?_⟩ <;> decide +kernel

theorem witness_PointerCheckFirst :
    (¬PointersOk (room 64 65 (load []))) ∧ (Instr.rdunit 4).wellFormed = true ∧
      (Instr.rdunit 4).mnemonic ∈ ["LDBLK", "STINT", "WRUNIT", "RDUNIT", "WRPT", "RDPT"] :=
  ⟨witness_PointersOk.2.2.1, rfl, by decide⟩

/-- A state that has written a unit, and a state whose stream is that unit (P2, P3). -/
theorem witness_UnitRoundTrip :
    let s := load [(2, 188), (3, 93), (5, 3000), (8, 4294967295)]
    let t := got (exec (.wrunit 5) s)
    let u := stream (out 6 t) (load [])
    s.Inv ∧ s.err = false ∧ exec (.wrunit 5) s = .next t ∧ t.err = false ∧ u.cfg.width = s.cfg.width ∧
      PointersOk u ∧ t.cnt.toNat ≤ u.ilen.toNat - u.iptr.toNat ∧
      ∀ j < t.cnt.toNat, u.ibuf.read (u.iptr.toNat + j) = t.obuf.read (s.optr.toNat + j) := by
  refine ⟨load_inv, by decide, got_exec _ _, by decide +kernel, rfl, ?_, by decide +kernel, by decide +kernel⟩
  unfold PointersOk
  decide +kernel

theorem witness_PointRoundTrip :
    let s := load [(2, 188), (3, 93), (5, 3000), (8, 4294967295)]
    let t := got (exec (.wrpt 1) s)
    let u := stream (out 11 t) (load [])
    (1 : PReg).toNat < 8 ∧ s.Inv ∧ s.err = false ∧ exec (.wrpt 1) s = .next t ∧ t.err = false ∧
      u.cfg.width = s.cfg.width ∧ PointersOk u ∧ t.cnt.toNat ≤ u.ilen.toNat - u.iptr.toNat ∧
      ∀ j < t.cnt.toNat, u.ibuf.read (u.iptr.toNat + j) = t.obuf.read (s.optr.toNat + j) := by
  refine ⟨by decide, load_inv, by decide, got_exec _ _, by decide +kernel, rfl, ?_, by decide +kernel,
    by decide +kernel⟩
  unfold PointersOk
  decide +kernel

/-- The point at infinity is the one byte 01. -/
theorem witness_PointRoundTrip_inf :
    let s := { load [] with pinf := 8 }
    let t := got (exec (.wrpt 3) s)
    let u := stream (out 1 t) (load [])
    s.point 3 = .inf ∧ s.Inv ∧ s.err = false ∧ exec (.wrpt 3) s = .next t ∧ t.err = false ∧
      u.cfg.width = s.cfg.width ∧ PointersOk u ∧ t.cnt.toNat ≤ u.ilen.toNat - u.iptr.toNat ∧
      ∀ j < t.cnt.toNat, u.ibuf.read (u.iptr.toNat + j) = t.obuf.read (s.optr.toNat + j) := by
  refine ⟨rfl, ⟨by decide, by decide +kernel, by decide, by decide, by decide⟩, rfl, got_exec _ _, by decide +kernel,
    rfl, ?_, by decide +kernel, by decide +kernel⟩
  unfold PointersOk
  decide +kernel

/-- P9's fault: the position is inside the stream. -/
theorem witness_ErrposInsideStream :
    let s := { stream [0, 0, 0, 2, 0x0B, 0xB8, 0, 0, 0, 2, 0x0C] (load []) with iptr := 6 }
    let t := got (exec (.rdunit 4) s)
    s.err = false ∧ exec (.rdunit 4) s = .next t ∧ t.err = true ∧ t.cause = 3 ∧ t.errPos = 10 :=
  ⟨by decide, got_exec _ _, by decide +kernel, by decide +kernel, by decide +kernel⟩

theorem witness_FaultEntryExactly :
    let s := load [(0, 6), (1, 9)]
    let t := got (exec (.modinv 2 0 1) s)
    s.err = false ∧ exec (.modinv 2 0 1) s = .next t ∧ t.err = true ∧ t.cause ≠ 3 :=
  ⟨by decide, got_exec _ _, by decide +kernel, by decide +kernel⟩

theorem witness_FaultsByCommand :
    let s := load [(0, 6), (1, 9)]
    let t := got (exec (.modinv 2 0 1) s)
    (Instr.modinv 2 0 1).wellFormed = true ∧ s.err = false ∧ exec (.modinv 2 0 1) s = .next t ∧ t.err = true :=
  ⟨rfl, by decide, got_exec _ _, by decide +kernel⟩

theorem witness_FaultedState :
    broken.err = true ∧ broken.busy = false ∧ target broken.cfg 0x8000 4 = some (.obuf 0) ∧
      (6 : Word).getLsbD 0 = false ∧
      IsReset .hardReset ∧ ∃ t, after broken .hardReset = .next t ∧ t.err = false :=
  ⟨rfl, rfl, by decide, by decide, .inl rfl, _, rfl, rfl⟩

theorem witness_PinfWriters :
    exec (.pneg 2 0 13) curve = .next (got (exec (.pneg 2 0 13) curve)) ∧
      ∀ pd, pointWritten (.pneg 2 0 13) = some pd → 3 ≠ pd.toNat :=
  ⟨got_exec _ _, fun pd h => by cases h; decide⟩

/-- One offset for each way of being unmapped, at the edges of the holes. -/
theorem witness_UnmappedRefused :
    let c := wide.cfg
    (1 : Nat) ≠ 4 ∧ 0x0006 % 4 ≠ 0 ∧ (0x34 ≤ 0x34 ∧ 0xFFC < 0x1000) ∧
      (0x1000 ≤ 0x1608 ∧ 0x1608 < 0x3000 ∧ c.width / 32 ≤ (0x1608 - 0x1000) % 0x200 / 4) ∧
      (0x3000 ≤ 0x3000 ∧ 0x3000 < 0x4000) ∧ (0x4000 + c.ibytes ≤ 0x4040 ∧ 0x4040 < 0x8000) ∧
      0x8000 + c.obytes ≤ 0x8040 := by decide

theorem witness_ReadRules :
    (0x00 % 4 = 0 ∧ 0x30 % 4 = 0 ∧ 0x30 < 0x34) ∧
      (1 < wide.cfg.width / 32 ∧ 0x2E04 = 0x1000 + 0x200 * (15 : BReg).toNat + 4 * 1) ∧
      (60 < wide.cfg.ibytes ∧ 60 < wide.cfg.obytes ∧ wide.busy = false) ∧
      (accepted 0 wide).busy = true := by decide

theorem witness_WriteRules :
    0x30 ∈ [0x04, 0x08, 0x0C, 0x24, 0x28, 0x2C, 0x30] ∧ (accepted 0 wide).busy = true ∧ broken.err = true ∧
      wide.busy = false ∧ wide.err = false := by decide

theorem witness_LimbWindow :
    wide.cfg.Legal ∧ wide.RegsFit ∧ wide.busy = false ∧ wide.err = false ∧ 1 < wide.cfg.width / 32 := by
  decide +kernel

theorem witness_BufferWindow :
    wide.cfg.Legal ∧ wide.BuffersOk ∧ wide.busy = false ∧ wide.err = false ∧ 60 % 4 = 0 ∧ 60 < wide.cfg.ibytes ∧
      60 < wide.cfg.obytes := by decide

theorem witness_ControlRegisterValues : Config.Legal ⟨4096, 16384, 4⟩ ∧ Config.Legal ⟨32, 4, 16384⟩ := by decide

theorem witness_PointsAreViews :
    (7 : PReg).toNat < 8 ∧ (14 : BReg).toNat = 2 * (7 : PReg).toNat ∧
      (15 : BReg).toNat = 2 * (7 : PReg).toNat + 1 ∧ (load []).pinf.getLsbD 7 = false ∧
      { load [] with pinf := 128 }.pinf.getLsbD 7 = true := by decide

theorem witness_BusyStateFrozen :
    (accepted 0x04201000 wide).busy = true ∧ NoReset (.read 4 4) ∧ NoReset (.write 0x10 4 6) ∧
      NoReset (.write 0x14 4 1) :=
  ⟨rfl, trivial, by simp [NoReset], by simp [NoReset]⟩

theorem witness_PollingChangesNoResult :
    let s := { accepted 0x04201000 wide with pending := [.read 4 4, .write 0x10 4 6] }
    s.busy = true ∧ s.pending = [.read 4 4, .write 0x10 4 6] ∧ ∀ e ∈ s.pending, NoReset e := by
  simp [accepted, NoReset]

theorem witness_ResetIsOneEvent : (7 : Word).getLsbD 0 = true := by decide

theorem witness_CtrlRegister : (7 : Word).getLsbD 0 = true ∧ (6 : Word).getLsbD 0 = false := by decide

theorem witness_ResetValues : IsReset .hardReset ∧ IsReset (.write 0x10 4 7) :=
  ⟨.inl rfl, .inr ⟨7, by decide, rfl⟩⟩

theorem witness_InterruptLine :
    (wide.busy = false ∧ wide.err = false) ∧ ((1 : Word).getLsbD 1 = false ∧ (1 : Word).getLsbD 2 = false) ∧
      (let s := { wide with done := true, ieDone := true }
       s.irq = true ∧ s.err = false ∧ (4 : Word).getLsbD 1 = false ∧ (hit (.write 0x10 4 4) s).irq = false) ∧
      (let s := { broken with ieErr := true }
       s.irq = true ∧ s.done = false ∧ (2 : Word).getLsbD 2 = false ∧ (hit (.write 0x10 4 2) s).irq = false) ∧
      (let s := { accepted 0x04201000 wide with ieDone := true, ieErr := true }
       s.ieDone = true ∧ s.ieErr = true ∧ exec (.gcd 2 0 1) s = .next (got (exec (.gcd 2 0 1) s))) :=
  ⟨by decide, by decide, by decide, by decide, rfl, rfl, got_exec _ _⟩

theorem witness_StepKeepsInv :
    let s := { load [(2, 188), (3, 93), (5, 3000), (8, 4294967295)] with pending := [.write 0 4 0x22500000] }
    s.Inv ∧ ∃ t, step s = .next t :=
  ⟨⟨load_inv.legal, load_inv.regs, load_inv.status, load_inv.cause, load_inv.buffers⟩, _, rfl⟩

theorem witness_ResetInv : Config.Legal ⟨4096, 16384, 16384⟩ := by decide

end Sys2Proof.Tests
end

section
/-! PROOFS. The byte strings of 00_scope.md R10 and 42_codec.md R146: a big-endian string is
determined by its length and its value, so that `mag` and `unitBytes` are the only magnitude and the only unit. -/

namespace Sys2Proof.Proofs

open Sys2Proof Sys2Proof.Machine Sys2Proof.Claims

/-! ### The value of a string -/

/-- The first byte of a string weighs the most (R10). -/
theorem beSum_cons (b : Byte) (l : List Byte) : beSum (b :: l) = b.toNat * 256 ^ l.length + beSum l := by
  have weight (j : Fin l.length) : l.length - (j.val + 1) = l.length - 1 - j.val := by omega
  simp only [beSum, List.length_cons, Fin.sum_univ_succ, List.get_eq_getElem, Fin.val_zero, Fin.val_succ,
    List.getElem_cons_zero, List.getElem_cons_succ, Nat.add_sub_cancel, Nat.sub_zero, weight]

/-- The sum of weighted bytes, which the statements speak of, is the model's `beValue`. -/
theorem beSum_eq_beValue (l : List Byte) : beSum l = beValue l := by
  induction l with
  | nil => rfl
  | cons b l ih => rw [beSum_cons, beValue_cons, ih]

/-- A string is determined by its length and its value. -/
theorem eq_beBytes_iff {l : List Byte} {k v : Nat} (hv : v < 256 ^ k) :
    l = beBytes k v ↔ l.length = k ∧ beSum l = v := by
  constructor
  · rintro rfl
    exact ⟨length_beBytes k v, by rw [beSum_eq_beValue, beValue_beBytes, Nat.mod_eq_of_lt hv]⟩
  · rintro ⟨rfl, rfl⟩
    rw [beSum_eq_beValue, beBytes_beValue]

/-! ### The magnitude -/

/-- No string of a value with at least one byte is shorter than its magnitude. -/
theorem magLength_beSum_le {l : List Byte} (hl : l ≠ []) : magLength (beSum l) ≤ l.length := by
  have hpos : 0 < l.length := List.length_pos_iff.2 hl
  have hlt : beSum l < 2 ^ (8 * l.length) := by
    rw [beSum_eq_beValue, pow_mul]
    exact beValue_lt l
  have := magLength_le (beSum l) (8 * l.length) hlt (by omega) (by omega)
  omega

theorem isMag_mag (v : Nat) : IsMag v (mag v) := by
  obtain ⟨hlen, hval⟩ := (eq_beBytes_iff (lt_magLength v)).1 (rfl : mag v = _)
  have hpos := magLength_pos v
  refine ⟨hval, List.length_pos_iff.1 (by omega), ?_⟩
  rintro l rfl hl
  rw [hlen]
  exact magLength_beSum_le hl

/-- `mag v` is the one minimal magnitude of `v` (R10): two shortest strings have one length. -/
theorem isMag_iff {v : Nat} {l : List Byte} : IsMag v l ↔ l = mag v := by
  constructor
  · rintro ⟨hval, hne, hmin⟩
    obtain ⟨hval', hne', hmin'⟩ := isMag_mag v
    have hlen : l.length = (mag v).length := le_antisymm (hmin _ hval' hne') (hmin' _ hval hne)
    exact (eq_beBytes_iff (lt_magLength v)).2 ⟨hlen.trans (length_mag v), hval⟩
  · rintro rfl
    exact isMag_mag v

/-! ### The unit -/

/-- `unitBytes v` is the one unit of `v` (R146) when the magnitude's length fits the four bytes before it. -/
theorem isUnit_iff {v : Nat} {l : List Byte} (hfit : (mag v).length < 256 ^ 4) :
    IsUnit v l ↔ l = unitBytes v := by
  constructor
  · rintro ⟨size, m, hm, hlen, hsize, rfl⟩
    obtain rfl := isMag_iff.1 hm
    rw [(eq_beBytes_iff hfit).2 ⟨hlen, hsize⟩, unitBytes, be32]
  · rintro rfl
    obtain ⟨hlen, hsize⟩ := (eq_beBytes_iff hfit).1 (rfl : be32 (mag v).length = _)
    exact ⟨be32 (mag v).length, mag v, isMag_mag v, hlen, hsize, rfl⟩

theorem length_unitBytes (v : Nat) : (unitBytes v).length = 4 + magLength v := by
  rw [unitBytes, List.length_append, be32, length_beBytes, length_mag]

/-- A register's magnitude has at most `W/8` bytes when the parameters are legal. -/
theorem magLength_le_of_legal {c : Config} {v : Nat} (hc : c.Legal) (hv : v < 2 ^ c.width) :
    magLength v ≤ c.width / 8 := by
  obtain ⟨⟨hword, hmin, _⟩, _, _⟩ := hc
  exact magLength_le v c.width hv (by omega) (by omega)

/-- A register's magnitude fits the four length bytes: `W` is at most 4096, so it has at most 512 bytes. -/
theorem length_mag_lt_of_legal {c : Config} {v : Nat} (hc : c.Legal) (hv : v < 2 ^ c.width) :
    (mag v).length < 256 ^ 4 := by
  have hle := magLength_le_of_legal hc hv
  obtain ⟨⟨_, _, hmax⟩, _, _⟩ := hc
  rw [length_mag]
  omega

/-- Settles O27: both strings are characterised by an `↔`, and a unit's length is four more than its magnitude's. -/
theorem magnitudeAndUnit : Obligations.MagnitudeAndUnit := by
  refine ⟨fun v => ⟨isMag_mag v, fun l => isMag_iff.1⟩, fun c v hc hv => ?_⟩
  have hfit := length_mag_lt_of_legal hc hv
  have hpos := magLength_pos v
  have hle := magLength_le_of_legal hc hv
  refine ⟨(isUnit_iff hfit).2 rfl, fun l => (isUnit_iff hfit).1, ?_⟩
  rw [length_unitBytes]
  omega

end Sys2Proof.Proofs
end

section
/-! PROOFS. The state of 10_state.md: what the control registers and the point views read as, what a reset
leaves (R36), which commands write PINF (R24), and that every step keeps a legal state legal. -/

namespace Sys2Proof.Proofs

open Sys2Proof Sys2Proof.Machine Sys2Proof.Claims

/-! ### Events -/

/-- The step of `after` delivers its event, and the events that were pending still are. -/
theorem after_eq_deliver (s : State) (e : Event) : after s e = s.deliver e := rfl

/-- A write of the word at 0x10 is performed in every state (R31, R56). -/
theorem hostWrite_ctrl (s : State) (d : Word) : s.hostWrite 0x10 4 d = s.writeCtrl d := rfl

/-- A read of the word at 0x10 is performed in every state (R31, R56). -/
theorem hostRead_ctrl (s : State) : s.hostRead 0x10 4 = s.answer s.ctrlWord := rfl

theorem after_hardReset (s : State) : after s .hardReset = .next s.performReset := rfl

theorem after_write_ctrl (s : State) (d : Word) : after s (.write 0x10 4 d) = .next (s.writeCtrl d) := by
  rw [after_eq_deliver, State.deliver, hostWrite_ctrl]

theorem writeCtrl_reset (s : State) {d : Word} (hd : d.getLsbD 0 = true) : s.writeCtrl d = s.performReset :=
  if_pos hd

theorem writeCtrl_enables (s : State) {d : Word} (hd : d.getLsbD 0 = false) :
    s.writeCtrl d = { s with ieDone := d.getLsbD 1, ieErr := d.getLsbD 2 } := by
  simp only [State.writeCtrl, hd, Bool.false_eq_true, if_false]

/-- Both resets have the one effect of R230. -/
theorem after_reset (s : State) {e : Event} (he : IsReset e) : after s e = .next s.performReset := by
  obtain rfl | ⟨d, hd, rfl⟩ := he
  · exact after_hardReset s
  · rw [after_write_ctrl, writeCtrl_reset s hd]

/-! ### The control registers -/

/-- The bits of STATUS (R28). -/
theorem getLsbD_statusWord (s : State) (k : Nat) :
    s.statusWord.getLsbD k =
      if k = 0 then s.busy else if k = 1 then s.done else if k = 2 then s.err else if k = 3 then s.hostErr
      else false := by
  simp only [State.statusWord, BitVec.getLsbD_append]
  match k with
  | 0 | 1 | 2 | 3 | _ + 4 => simp

/-- The bits of CTRL as it is read (R31). -/
theorem getLsbD_ctrlWord (s : State) (k : Nat) :
    s.ctrlWord.getLsbD k = if k = 1 then s.ieDone else if k = 2 then s.ieErr else false := by
  simp only [State.ctrlWord, BitVec.getLsbD_append]
  match k with
  | 0 | 1 | 2 | _ + 3 => simp

/-- Settles O47: the two words with fields bit by bit; a legal parameter fits 32 bits (R5). -/
theorem controlRegisterValues : Obligations.ControlRegisterValues := by
  intro s
  refine ⟨rfl, fun k _ => getLsbD_statusWord s k, ?_, rfl, fun k _ => getLsbD_ctrlWord s k, ?_, rfl, rfl, rfl, rfl,
    ?_⟩
  · exact BitVec.toNat_setWidth_of_le (by decide)
  · exact BitVec.toNat_setWidth_of_le (by decide)
  · rintro ⟨⟨_, _, hW⟩, ⟨_, _, hI⟩, _, _, hO⟩
    simp only [State.ctlRead, BitVec.toNat_ofNat]
    omega

/-- Settles O48: CTRL's word is performed in every state, and a write of it has two cases by bit 0 (R31). -/
theorem ctrlRegister : Obligations.CtrlRegister := by
  refine fun s d => ⟨fun hd => ?_, fun hd => ?_, s.ctrlWord, rfl, fun k _ => getLsbD_ctrlWord s k⟩
  · rw [after_write_ctrl, writeCtrl_reset s hd, after_hardReset]
  · rw [after_write_ctrl, writeCtrl_enables s hd]

/-! ### The points as views -/

theorem point_of_infinite {s : State} {p : PReg} (h : s.pinf.getLsbD p.toNat = true) : s.point p = .inf :=
  if_pos h

theorem point_of_finite {s : State} {p : PReg} (h : s.pinf.getLsbD p.toNat = false) :
    s.point p = .finite (s.big (xReg p)) (s.big (yReg p)) := by
  simp only [State.point, State.pinfBit, h, Bool.false_eq_true, if_false]

theorem eq_xReg {p : PReg} {i : BReg} (hp : p.toNat < 8) (hi : i.toNat = 2 * p.toNat) : i = xReg p :=
  BitVec.eq_of_toNat_eq (hi.trans (xReg_toNat p hp).symm)

theorem eq_yReg {p : PReg} {i : BReg} (hp : p.toNat < 8) (hi : i.toNat = 2 * p.toNat + 1) : i = yReg p :=
  BitVec.eq_of_toNat_eq (hi.trans (yReg_toNat p hp).symm)

/-- Settles O49: a register write keeps PINF, and the two coordinates are different registers. -/
theorem pointsAreViews : Obligations.PointsAreViews := by
  refine fun s p i v hp => ⟨fun hi hfin => ?_, fun hi hfin => ?_, fun hinf => ?_, rfl⟩
  · obtain rfl := eq_xReg hp hi
    rw [point_of_finite (s := s.setBig _ v) hfin, State.big_setBig_same,
      State.big_setBig_other _ _ _ _ (yReg_ne_xReg p hp)]
    rfl
  · obtain rfl := eq_yReg hp hi
    rw [point_of_finite (s := s.setBig _ v) hfin, State.big_setBig_same,
      State.big_setBig_other _ _ _ _ (yReg_ne_xReg p hp).symm]
    rfl
  · exact point_of_infinite hinf

/-! ### Reset -/

/-- The reset state for any parameters has the values of R36, whatever the model's own two lists hold. -/
theorem atReset_resetWith (c : Config) (es : List Event) (ws : List Word) :
    AtReset c { State.resetWith c with pending := es, returned := ws } where
  big := State.big_resetWith c
  points p := by
    rw [point_of_finite (BitVec.getLsbD_zero ..)]
    exact congrArg₂ Point.finite (State.big_resetWith c _) (State.big_resetWith c _)
  pinf := rfl
  cmd := rfl
  status := ⟨rfl, rfl, rfl, rfl⟩
  cause := rfl
  errPos := rfl
  enables := ⟨rfl, rfl⟩
  irq := rfl
  pointers := ⟨rfl, rfl, rfl, rfl⟩
  cfg := rfl
  ibuf := Memory.read_nil
  obuf := Memory.read_nil

/-- Settles O53: both resets are `performReset`, which is the reset state beside the model's own lists. -/
theorem resetValues : Obligations.ResetValues :=
  ⟨fun s _ he => ⟨s.performReset, after_reset s he, atReset_resetWith s.cfg _ _⟩,
    fun c => atReset_resetWith c [] []⟩

/-- For legal parameters the reset state is legal: every register is 0 and both buffers are empty. -/
theorem inv_resetWith {c : Config} (hc : c.Legal) : (State.resetWith c).Inv where
  legal := hc
  regs i := by
    rw [State.big_resetWith]
    exact Nat.two_pow_pos _
  status := by simp [State.StatusOk]
  cause := by simp [State.CauseOk]
  buffers := ⟨Memory.wf_nil, List.forall_mem_nil _, Memory.wf_nil, List.forall_mem_nil _⟩

/-- Settles O56, from `inv_resetWith`. -/
theorem resetInv : Obligations.ResetInv :=
  ⟨fun _ => inv_resetWith, rfl, inv_resetWith (by decide)⟩

/-! ### What a rule writes in PINF -/

theorem montmulRule_ok {bd ba bb bn : BReg} {s u : State} (h : montmulRule bd ba bb bn s = .ok u) :
    s.big bn % 2 = 1 ∧ s.big ba < s.big bn ∧ s.big bb < s.big bn ∧
      u = s.setBig bd (montMul s.cfg.width (s.big ba) (s.big bb) (s.big bn)) := by
  unfold montmulRule at h
  dsimp only at h
  split at h
  · cases h
  · split at h
    · cases h
    · cases h
      exact ⟨by omega, by omega, by omega, rfl⟩

theorem modexpRule_ok {bd ba be bn : BReg} {s u : State} (h : modexpRule bd ba be bn s = .ok u) :
    s.big bn ≠ 0 ∧ u = s.setBig bd (modExp s.cfg.width (s.big ba) (s.big be) (s.big bn)) := by
  unfold modexpRule at h
  dsimp only at h
  split at h
  · cases h
  · cases h
    exact ⟨‹_›, rfl⟩

theorem modinvRule_ok {bd ba bn : BReg} {s u : State} (h : modinvRule bd ba bn s = .ok u) :
    s.big bn ≠ 0 ∧ ∃ t, inverse (s.big ba) (s.big bn) = .ok t ∧ u = s.setBig bd t := by
  unfold modinvRule at h
  dsimp only at h
  split at h
  · cases h
  · split at h
    · cases h
    · cases h
      exact ⟨‹_›, _, ‹_›, rfl⟩

theorem store_ok {s u : State} {l : List Byte} (h : s.store l = .ok u) :
    s.pointersOk = true ∧ l.length ≤ s.room ∧ u = s.emit l := by
  obtain ⟨-, h'⟩ | ⟨-, -, h'⟩ | ⟨hp, hl, h'⟩ := s.store_cases l <;> rw [h'] at h <;> cases h
  exact ⟨hp, hl, rfl⟩

/-- A rule leaves PINF as it was, or writes the flag of the point that R24 names for its command. -/
theorem ruleOf_pinf {i : Instr} {s u : State} (h : ruleOf i s = .ok u) :
    u.pinf = s.pinf ∨ ∃ d P, pointWritten i = some d ∧ u.pinf = (s.setPoint d P).pinf := by
  cases i with
  | montmul bd ba bb bn =>
    obtain ⟨-, -, -, rfl⟩ := montmulRule_ok h
    exact .inl rfl
  | modexp bd ba be bn =>
    obtain ⟨-, rfl⟩ := modexpRule_ok h
    exact .inl rfl
  | modinv bd ba bn =>
    obtain ⟨-, _, -, rfl⟩ := modinvRule_ok h
    exact .inl rfl
  | gcd bd ba bb =>
    cases h
    exact .inl rfl
  | ldblk bd bn =>
    obtain ⟨-, -, -, rfl⟩ := ldblkRule_ok _ _ _ _ h
    exact .inl rfl
  | rdunit bd =>
    obtain ⟨-, _, _, -, rfl⟩ := rdunitRule_ok _ _ _ h
    exact .inl rfl
  | stint bs | wrunit bs | wrpt bs =>
    obtain ⟨-, -, rfl⟩ := store_ok h
    exact .inl rfl
  | padd pd | pdbl pd | pmul pd | pneg pd =>
    simp only [ruleOf] at h
    obtain ⟨-, -, P, -, rfl⟩ := pointRule_ok _ _ _ _ _ _ h
    exact .inr ⟨pd, P, rfl, rfl⟩
  | rdpt pd =>
    obtain ⟨-, -, ⟨-, rfl⟩ | ⟨-, x, y, _, _, -, -, rfl⟩⟩ := rdptRule_ok _ _ _ h
    · exact .inr ⟨pd, .inf, rfl, rfl⟩
    · exact .inr ⟨pd, .finite x y, rfl, rfl⟩

/-- Settles O41: a fault writes no flag, and a write of a point leaves the flags of the others. -/
theorem pinfWriters : Obligations.PinfWriters := by
  intro s t i h k hk hother
  obtain ⟨-, u, hu, rfl⟩ | ⟨f, -, rfl⟩ := exec_cases i s t h
  · obtain hpinf | ⟨d, P, hd, hpinf⟩ := ruleOf_pinf hu
    · rw [State.succeed_pinf, hpinf]
    · rw [State.succeed_pinf, hpinf, State.pinf_setPoint s d P k hk, if_neg (hother d hd)]
  · rw [State.faultEntry_pinf]

/-! ### What keeps a state legal -/

/-- The part of a state that the invariant speaks of. -/
def legalPart (s : State) :
    Config × Vector Nat 16 × (Bool × Bool × Bool) × (BitVec 3 × Word) × Memory × Memory :=
  (s.cfg, s.regs, (s.busy, s.done, s.err), (s.cause, s.errPos), s.ibuf, s.obuf)

/-- An update of the other fields keeps a state legal. -/
theorem inv_of_legalPart_eq {s t : State} (hs : s.Inv) (h : legalPart t = legalPart s) : t.Inv := by
  simp only [legalPart, Prod.mk.injEq] at h
  obtain ⟨hcfg, hregs, ⟨hbusy, hdone, herr⟩, ⟨hcause, hpos⟩, hibuf, hobuf⟩ := h
  obtain ⟨legal, regs, status, cause, buffers⟩ := hs
  constructor
  · rwa [hcfg]
  · intro i
    rw [State.big_congr s t hregs, hcfg]
    exact regs i
  · rwa [State.StatusOk, hbusy, hdone, herr]
  · rwa [State.CauseOk, hcause, hpos, herr]
  · rwa [State.BuffersOk, hibuf, hobuf, hcfg]

theorem inv_setBig {s : State} (hs : s.Inv) (d : BReg) {v : Nat} (hv : v < 2 ^ s.cfg.width) : (s.setBig d v).Inv :=
  ⟨hs.legal, RegsFit_setBig s d v hs.regs hv, hs.status, hs.cause, hs.buffers⟩

/-- A string of bytes that ends inside IBUF keeps a state legal. -/
theorem inv_write_ibuf {s : State} (hs : s.Inv) {a : Nat} {l : List Byte} (h : a + l.length ≤ s.cfg.ibytes) :
    ({ s with ibuf := s.ibuf.writeBytes a l } : State).Inv := by
  obtain ⟨hwf, hbelow, hobuf⟩ := hs.buffers
  exact ⟨hs.legal, hs.regs, hs.status, hs.cause,
    Memory.wf_writeBytes l _ a hwf, Memory.below_writeBytes l _ a _ hbelow h, hobuf⟩

/-- A string of bytes that ends inside OBUF keeps a state legal. -/
theorem inv_write_obuf {s : State} (hs : s.Inv) {a : Nat} {l : List Byte} (h : a + l.length ≤ s.cfg.obytes) :
    ({ s with obuf := s.obuf.writeBytes a l } : State).Inv := by
  obtain ⟨hiwf, hibelow, hwf, hbelow⟩ := hs.buffers
  exact ⟨hs.legal, hs.regs, hs.status, hs.cause,
    hiwf, hibelow, Memory.wf_writeBytes l _ a hwf, Memory.below_writeBytes l _ a _ hbelow h⟩

theorem inv_performReset {s : State} (hs : s.Inv) : s.performReset.Inv :=
  inv_of_legalPart_eq (inv_resetWith hs.legal) rfl

/-- Fault entry leaves ERR alone set, with a code that is neither 0 nor 7 (R201, R206). -/
theorem inv_faultEntry {s : State} (hs : s.Inv) (f : CoreFault) : (s.faultEntry f).Inv where
  legal := hs.legal
  regs := hs.regs
  status := by simp [State.StatusOk]
  cause := ⟨iff_of_false f.code_range.1 (by simp), f.code_range.2, f.errPos_eq_zero⟩
  buffers := hs.buffers

/-- A command that was running ends with DONE alone set: while BUSY is 1, ERR is 0 (R28). -/
theorem inv_succeed {s : State} (hs : s.Inv) (hbusy : s.busy = true) : s.succeed.Inv where
  legal := hs.legal
  regs := hs.regs
  status := by
    obtain ⟨-, hnot, -⟩ := hs.status
    simpa [State.StatusOk, hbusy] using hnot
  cause := hs.cause
  buffers := hs.buffers

/-- A word is accepted only while CORE is idle, and then BUSY alone is set (R79). -/
theorem inv_acceptCommand {s : State} (hs : s.Inv) (hidle : s.idle = true) (w : Word) : (s.acceptCommand w).Inv where
  legal := hs.legal
  regs := hs.regs
  status := by simp_all [State.idle, State.StatusOk]
  cause := hs.cause
  buffers := hs.buffers

/-! ### Every step keeps a legal state legal -/

/-- The writes of a rule that does not fault keep a state legal. -/
theorem inv_ruleOf {i : Instr} {s u : State} (hs : s.Inv) (h : ruleOf i s = .ok u) : u.Inv := by
  have keeps := ruleOf_keeps i s u h
  have written : ({ s with regs := u.regs } : State).Inv :=
    ⟨hs.legal, ruleOf_fits i s u hs.regs h, hs.status, hs.cause, hs.buffers⟩
  obtain hobuf | ⟨l, hl, hobuf⟩ := ruleOf_obuf i s u h
  · refine inv_of_legalPart_eq written ?_
    simp only [legalPart, keeps.cfg, keeps.busy, keeps.done, keeps.err, keeps.cause, keeps.errPos, keeps.ibuf, hobuf]
  · refine inv_of_legalPart_eq (inv_write_obuf written hl) ?_
    simp only [legalPart, keeps.cfg, keeps.busy, keeps.done, keeps.err, keeps.cause, keeps.errPos, keeps.ibuf, hobuf]

/-- The completion step of a running command keeps a state legal. -/
theorem inv_exec {i : Instr} {s t : State} (hs : s.Inv) (hbusy : s.busy = true) (h : exec i s = .next t) : t.Inv := by
  obtain ⟨-, u, hu, rfl⟩ | ⟨f, -, rfl⟩ := exec_cases i s t h
  · exact inv_succeed (inv_ruleOf hs hu) ((ruleOf_keeps i s u hu).busy.trans hbusy)
  · exact inv_faultEntry hs f

theorem inv_sequence {s t : State} (hs : s.Inv) (h : s.sequence = .next t) : t.Inv := by
  obtain ⟨-, rfl⟩ | ⟨hbusy, i, -, hexec⟩ | ⟨-, -, rfl⟩ := s.sequence_cases t h
  · exact hs
  · exact inv_exec hs hbusy hexec
  · exact inv_faultEntry hs _

theorem inv_hostRead {s : State} (hs : s.Inv) (offset bytes : Nat) : (s.hostRead offset bytes).Inv := by
  obtain ⟨l, -, -, h⟩ | h := s.hostRead_cases offset bytes <;> rw [h] <;> exact inv_of_legalPart_eq hs rfl

theorem inv_writeCtrl {s : State} (hs : s.Inv) (d : Word) : (s.writeCtrl d).Inv := by
  obtain ⟨-, h⟩ | ⟨-, h⟩ := s.writeCtrl_cases d <;> rw [h]
  · exact inv_performReset hs
  · exact inv_of_legalPart_eq hs rfl

/-- A host write keeps a state legal: a limb stays inside its register, a word inside its buffer, whose size is a
multiple of 4 (R5). -/
theorem inv_hostWrite {s : State} (hs : s.Inv) (offset bytes : Nat) (d : Word) : (s.hostWrite offset bytes d).Inv := by
  obtain ⟨⟨hW, -, -⟩, ⟨hI, -, -⟩, hO, -, -⟩ := hs.legal
  obtain h | ⟨-, -, h⟩ | ⟨hidle, h | h | h | h | h | ⟨i, j, hj, h⟩ | ⟨k, hk, hlt, h⟩ | ⟨k, hk, hlt, h⟩⟩ :=
    s.hostWrite_cases offset bytes d <;> rw [h]
  · exact inv_of_legalPart_eq hs rfl
  · exact inv_writeCtrl hs d
  · exact inv_acceptCommand hs hidle d
  -- PINF, IPTR, ILEN and OPTR are no part of the invariant.
  iterate 4 · exact inv_of_legalPart_eq hs rfl
  · exact inv_setBig hs i (withLimb_lt _ j _ d (hs.regs i) hW hj)
  · exact inv_write_ibuf hs (by rw [length_lanes]; omega)
  · exact inv_write_obuf hs (by rw [length_lanes]; omega)

theorem inv_deliver {s t : State} (hs : s.Inv) (e : Event) (h : s.deliver e = .next t) : t.Inv := by
  cases e with
  | read offset bytes =>
    cases h
    exact inv_hostRead hs offset bytes
  | write offset bytes d =>
    cases h
    exact inv_hostWrite hs offset bytes d
  | hardReset =>
    cases h
    exact inv_performReset hs
  | sequencer => exact inv_sequence hs h

/-- Settles O55: the next event's delivery, or the sequencer's move when none is pending. -/
theorem stepKeepsInv : Obligations.StepKeepsInv := by
  intro s t hs h
  cases hp : s.pending with
  | nil =>
    rw [step_nil s hp] at h
    exact inv_sequence hs h
  | cons e rest =>
    rw [step_cons s e rest hp] at h
    have hdue : ({ s with pending := rest } : State).Inv := inv_of_legalPart_eq hs rfl
    exact inv_deliver hdue e h

end Sys2Proof.Proofs
end

section
/-! PROOFS. The host's window of 20_memory.md: which word an access names (R51), what a performed and a refused
access leave (R56 to R59), the limbs of a big register (R55) and the byte lanes of a buffer (R53). -/

namespace Sys2Proof.Proofs

open Sys2Proof Sys2Proof.Machine Sys2Proof.Claims

/-! ### The word an access names -/

theorem target_limb {c : Config} {i : BReg} {j : Nat} (hj : j < c.width / 32) (hfits : j < 128) :
    target c (0x1000 + 0x200 * i.toNat + 4 * j) 4 = some (.limb i j) := by
  have hi : i.toNat < 16 := i.isLt
  have hreg : (0x1000 + 0x200 * i.toNat + 4 * j - 0x1000) / 0x200 = i.toNat := by omega
  have hlimb : (0x1000 + 0x200 * i.toNat + 4 * j - 0x1000) % 0x200 / 4 = j := by omega
  rw [target, if_pos ⟨rfl, by omega⟩, locate, if_neg (by omega), if_pos (by omega)]
  simp only [hreg, hlimb, if_pos hj, BitVec.ofNat_toNat, BitVec.setWidth_eq]

theorem target_ibuf {c : Config} {k : Nat} (h4 : k % 4 = 0) (hk : k < c.ibytes) (hfits : k < 0x4000) :
    target c (0x4000 + k) 4 = some (.ibuf k) := by
  rw [target, if_pos ⟨rfl, by omega⟩, locate, if_neg (by omega), if_neg (by omega), if_neg (by omega),
    if_pos (by omega), Nat.add_sub_cancel_left, if_pos hk]

theorem target_obuf {c : Config} {k : Nat} (h4 : k % 4 = 0) (hk : k < c.obytes) (hfits : k < 0x4000) :
    target c (0x8000 + k) 4 = some (.obuf k) := by
  rw [target, if_pos ⟨rfl, by omega⟩, locate, if_neg (by omega), if_neg (by omega), if_neg (by omega),
    if_neg (by omega), if_pos (by omega), Nat.add_sub_cancel_left, if_pos hk]

/-- Every aligned offset below 0x34 names a control register, and it is read as the table of R51 lays it out. -/
theorem target_controlWord (s : State) {offset : Nat} (h4 : offset % 4 = 0) (hlt : offset < 0x34) :
    ∃ r, target s.cfg offset 4 = some (.ctl r) ∧ ControlWord s offset (s.ctlRead r) := by
  obtain ⟨_, hstatus, hcause, _, hctrl, hpinf, _⟩ := controlRegisterValues s
  obtain ⟨n, rfl⟩ : ∃ n, offset = 4 * n := ⟨offset / 4, by omega⟩
  match n with
  | 0 => exact ⟨.cmd, rfl, rfl⟩
  | 1 => exact ⟨.status, rfl, hstatus⟩
  | 2 => exact ⟨.cause, rfl, hcause⟩
  | 3 => exact ⟨.errPos, rfl, rfl⟩
  | 4 => exact ⟨.ctrl, rfl, hctrl⟩
  | 5 => exact ⟨.pinf, rfl, hpinf⟩
  | 6 => exact ⟨.iptr, rfl, rfl⟩
  | 7 => exact ⟨.ilen, rfl, rfl⟩
  | 8 => exact ⟨.optr, rfl, rfl⟩
  | 9 => exact ⟨.cnt, rfl, rfl⟩
  | 10 => exact ⟨.width, rfl, rfl⟩
  | 11 => exact ⟨.ibsz, rfl, rfl⟩
  | 12 => exact ⟨.obsz, rfl, rfl⟩
  | n + 13 => omega

/-! ### Performed and refused accesses -/

theorem after_read (s : State) (offset bytes : Nat) :
    after s (.read offset bytes) = .next (s.hostRead offset bytes) := rfl

theorem after_write (s : State) (offset bytes : Nat) (d : Word) :
    after s (.write offset bytes d) = .next (s.hostWrite offset bytes d) := rfl

/-- While CORE is not busy every mapped word can be read (R56). -/
theorem mayRead_of_not_busy {s : State} (h : s.busy = false) (l : Loc) : s.mayRead l = true := by
  cases l with
  | ctl r => rfl
  | limb i j | ibuf k | obuf k => simp only [State.mayRead, h, Bool.not_false]

/-- A performed read returns the word and changes nothing of the machine (R57). -/
theorem after_read_performed {s : State} {offset bytes : Nat} {l : Loc} (hl : target s.cfg offset bytes = some l)
    (hmay : s.mayRead l = true) :
    after s (.read offset bytes) = .next { s with returned := s.locRead l :: s.returned } := by
  rw [after_read, State.hostRead, hl]
  simp only [hmay, if_true, State.answer]

/-- A read that is not performed returns 0 and sets HOSTERR (R58). -/
theorem after_read_refused {s : State} {offset bytes : Nat}
    (h : ∀ l, target s.cfg offset bytes = some l → s.mayRead l = false) :
    after s (.read offset bytes) = .next { s with hostErr := true, returned := 0 :: s.returned } := by
  rw [after_read]
  obtain ⟨l, hl, hmay, -⟩ | h' := s.hostRead_cases offset bytes
  · rw [h l hl] at hmay
    cases hmay
  · rw [h']
    rfl

theorem after_write_performed {s t : State} {offset bytes : Nat} {d : Word} {l : Loc}
    (hl : target s.cfg offset bytes = some l) (ht : s.locWrite d l = some t) :
    after s (.write offset bytes d) = .next t := by
  rw [after_write, State.hostWrite, hl]
  simp only [ht, Option.getD_some]

/-- A write that is not performed sets HOSTERR (R58). -/
theorem after_write_refused {s : State} {offset bytes : Nat} {d : Word}
    (h : s.hostWrite offset bytes d = s.refuse) :
    after s (.write offset bytes d) = .next { s with hostErr := true } := by
  rw [after_write, h]
  rfl

theorem hostWrite_unmapped {s : State} {offset bytes : Nat} (d : Word) (h : target s.cfg offset bytes = none) :
    s.hostWrite offset bytes d = s.refuse := by
  rw [State.hostWrite, h]

theorem idle_iff (s : State) : s.idle = true ↔ s.busy = false ∧ s.err = false := by
  simp [State.idle]

theorem not_idle_iff (s : State) : s.idle = false ↔ s.busy = true ∨ s.err = true := by
  cases hb : s.busy <;> simp [State.idle, hb]

/-- Settles O42: no word of the map has such an offset or width. -/
theorem unmappedRefused : Obligations.UnmappedRefused := by
  intro s offset bytes d h
  have hnone : target s.cfg offset bytes = none := by
    cases hl : target s.cfg offset bytes with
    | none => rfl
    | some l =>
      obtain ⟨hb, h4, hctl | hlimb | hibuf | hobuf⟩ := target_cases _ _ _ _ hl
      · omega
      · omega
      · omega
      · omega
  refine ⟨after_read_refused fun l hl => ?_, after_write_refused (hostWrite_unmapped d hnone)⟩
  rw [hnone] at hl
  cases hl

/-- Settles O43: the word each offset names, and whether R56 lets it be read. -/
theorem readRules : Obligations.ReadRules := by
  intro s offset h4
  refine ⟨fun hlt => ?_, ?_, ?_, ?_, fun hbusy hge => ?_⟩
  · obtain ⟨r, hr, hword⟩ := target_controlWord s h4 hlt
    exact ⟨s.ctlRead r, hword, after_read_performed hr rfl⟩
  · rintro i j hj hfits rfl hbusy
    exact after_read_performed (target_limb hj hfits) (mayRead_of_not_busy hbusy _)
  · rintro k hk hfits rfl hbusy
    exact after_read_performed (target_ibuf (by omega) hk hfits) (mayRead_of_not_busy hbusy _)
  · rintro k hk hfits rfl hbusy
    exact after_read_performed (target_obuf (by omega) hk hfits) (mayRead_of_not_busy hbusy _)
  · refine after_read_refused fun l hl => ?_
    obtain ⟨-, -, ⟨hlt, -⟩ | ⟨-, -, -, rfl⟩ | ⟨-, -, -, rfl⟩ | ⟨-, -, -, rfl⟩⟩ := target_cases _ _ _ _ hl
    · omega
    all_goals simp only [State.mayRead, hbusy, Bool.not_true]

/-- Settles O44: the registers that no write reaches (R56), the writes that need an idle CORE, and those it
performs. -/
theorem writeRules : Obligations.WriteRules := by
  intro s offset d
  refine ⟨fun hro => after_write_refused ?_, fun hbusy hoff => after_write_refused ?_, fun hbusy herr => ?_⟩
  · simp only [List.mem_cons, List.not_mem_nil, or_false] at hro
    obtain rfl | rfl | rfl | rfl | rfl | rfl | rfl := hro <;> rfl
  · exact s.hostWrite_not_idle offset 4 d ((not_idle_iff s).2 hbusy) fun h => hoff h.1
  · have hidle : s.idle = true := (idle_iff s).2 ⟨hbusy, herr⟩
    exact ⟨after_write_performed (l := .ctl .pinf) rfl (if_pos hidle),
      after_write_performed (l := .ctl .iptr) rfl (if_pos hidle),
      after_write_performed (l := .ctl .ilen) rfl (if_pos hidle),
      after_write_performed (l := .ctl .optr) rfl (if_pos hidle)⟩

/-! ### The limbs of a big register -/

/-- The low `n` limbs of a value add up to its low `32 n` bits. -/
theorem sum_limbs (v n : Nat) :
    ∑ k : Fin n, v / 2 ^ (32 * (k : Nat)) % 2 ^ 32 * 2 ^ (32 * (k : Nat)) = v % 2 ^ (32 * n) := by
  induction n with
  | zero => simp [Nat.mod_one]
  | succ n ih =>
    rw [Fin.sum_univ_castSucc]
    simp only [Fin.val_castSucc, Fin.val_last]
    rw [ih, Nat.mul_succ, pow_add, Nat.mod_mul, Nat.mul_comm (2 ^ (32 * n))]

/-- The limbs after a write of limb `j` (R55). -/
theorem limb_withLimb (v j k : Nat) (d : Word) :
    withLimb v j d / 2 ^ (32 * k) % 2 ^ 32 = if k = j then d.toNat else v / 2 ^ (32 * k) % 2 ^ 32 := by
  refine Nat.eq_of_testBit_eq fun b => ?_
  rw [Nat.testBit_mod_two_pow, Nat.testBit_div_two_pow, testBit_withLimb]
  by_cases hk : k = j
  · subst hk
    rw [if_pos rfl, BitVec.testBit_toNat]
    by_cases hb : b < 32
    · rw [if_pos (by omega), Nat.add_sub_cancel]
      simp only [hb, decide_true, Bool.true_and]
    · rw [BitVec.getLsbD_of_ge d b (by omega)]
      simp only [hb, decide_false, Bool.false_and]
  · rw [if_neg hk, Nat.testBit_mod_two_pow, Nat.testBit_div_two_pow]
    by_cases hb : b < 32
    · rw [if_neg (by omega)]
    · simp only [hb, decide_false, Bool.false_and]

/-- Settles O45: the access names limb `j` of `b[i]`, and its write is `withLimb` on that register alone. -/
theorem limbWindow : Obligations.LimbWindow := by
  rintro s i j d ⟨⟨hW, -, hmax⟩, -⟩ hfit hbusy herr hj
  have hidle : s.idle = true := (idle_iff s).2 ⟨hbusy, herr⟩
  have hlimb := target_limb (i := i) hj (by omega)
  refine ⟨?_, after_read_performed hlimb (mayRead_of_not_busy hbusy _),
    s.setBig i (withLimb (s.big i) j d), after_write_performed hlimb (if_pos hidle), ?_, ?_, fun k hk => ?_,
    fun i' hi' => State.big_setBig_other s i i' _ hi', rfl⟩
  · rw [sum_limbs, Nat.mul_div_cancel' (Nat.dvd_of_mod_eq_zero hW), Nat.mod_eq_of_lt (hfit i)]
  · rw [State.big_setBig_same, limb_withLimb, if_pos rfl]
  · rw [State.big_setBig_same]
    exact withLimb_lt _ j _ d (hfit i) hW hj
  · rw [State.big_setBig_same, limb_withLimb, if_neg hk]

/-! ### The byte lanes of a buffer's word -/

/-- The lane at bit `8 j` of a word is its base-256 digit `j`. -/
theorem toNat_lane (w : Word) (j : Nat) : (w.extractLsb' (8 * j) 8).toNat = w.toNat / 256 ^ j % 256 := by
  rw [BitVec.extractLsb'_toNat, Nat.shiftRight_eq_div_pow, pow_mul]
  rfl

theorem lane_lanesRead (m : Memory) (k : Nat) {j : Nat} (hj : j < 4) :
    (lanesRead m k).extractLsb' (8 * j) 8 = m.read (k + j) := by
  ext b hb
  simp only [BitVec.getElem_extractLsb', lanesRead, BitVec.getLsbD_append]
  match j with
  | 0 =>
    rw [if_pos (by omega), Nat.mul_zero, Nat.zero_add]
    exact BitVec.getLsbD_eq_getElem hb
  | 1 =>
    rw [if_neg (by omega), if_pos (by omega), show 8 * 1 + b - 8 = b by omega]
    exact BitVec.getLsbD_eq_getElem hb
  | 2 =>
    rw [if_neg (by omega), if_neg (by omega), if_pos (by omega), show 8 * 2 + b - 8 - 8 = b by omega]
    exact BitVec.getLsbD_eq_getElem hb
  | 3 =>
    rw [if_neg (by omega), if_neg (by omega), if_neg (by omega), show 8 * 3 + b - 8 - 8 - 8 = b by omega]
    exact BitVec.getLsbD_eq_getElem hb
  | j + 4 => omega

theorem getElem_lanes (d : Word) {j : Nat} (hj : j < (lanes d).length) :
    (lanes d)[j] = d.extractLsb' (8 * j) 8 := by
  match j with
  | 0 | 1 | 2 | 3 => rfl
  | j + 4 => exact absurd hj (by rw [length_lanes]; omega)

/-- Lane `j` of a word that is read is the byte `j` places on (R53). -/
theorem toNat_lanesRead (m : Memory) (k : Nat) {j : Nat} (hj : j < 4) :
    (lanesRead m k).toNat / 256 ^ j % 256 = (m.read (k + j)).toNat := by
  rw [← toNat_lane, lane_lanesRead m k hj]

/-- Lane `j` of a written word stands `j` places on (R53). -/
theorem read_write_lanes {m : Memory} (hm : m.Wf) (k : Nat) (d : Word) {j : Nat} (hj : j < 4) :
    ((m.writeBytes k (lanes d)).read (k + j)).toNat = d.toNat / 256 ^ j % 256 := by
  have hlen : j < (lanes d).length := by rwa [length_lanes]
  rw [Memory.read_writeBytes_same (lanes d) m k j hlen hm, getElem_lanes, toNat_lane]

/-- Settles O46: each half is the access to the word at `k` of its buffer, four lanes of it (R53). -/
theorem bufferWindow : Obligations.BufferWindow := by
  rintro s k d ⟨-, ⟨-, -, hI⟩, -, -, hO⟩ ⟨hiwf, -, howf, -⟩ hbusy herr h4
  have hidle : s.idle = true := (idle_iff s).2 ⟨hbusy, herr⟩
  refine ⟨fun hk => ?_, fun hk => ?_⟩
  · have hword := target_ibuf h4 hk (by omega)
    exact ⟨⟨lanesRead s.ibuf k, fun _ => toNat_lanesRead s.ibuf k,
        after_read_performed hword (mayRead_of_not_busy hbusy _)⟩,
      _, after_write_performed hword (if_pos hidle), fun _ => read_write_lanes hiwf k d,
      fun a => Memory.read_writeBytes_other (lanes d) s.ibuf k a, rfl⟩
  · have hword := target_obuf h4 hk (by omega)
    exact ⟨⟨lanesRead s.obuf k, fun _ => toNat_lanesRead s.obuf k,
        after_read_performed hword (mayRead_of_not_busy hbusy _)⟩,
      _, after_write_performed hword (if_pos hidle), fun _ => read_write_lanes howf k d,
      fun a => Memory.read_writeBytes_other (lanes d) s.obuf k a, rfl⟩

end Sys2Proof.Proofs
end

section
/-! PROOFS. The order of 20_memory.md R60 while a command is in execution: the accesses of the host reach HOSTERR,
the enables and the words returned, which no command reads. -/

namespace Sys2Proof.Proofs

open Sys2Proof Sys2Proof.Machine Sys2Proof.Claims

/-! ### The part of the state that belongs to the host's accesses -/

/-- The state `s` with HOSTERR, the two enables and the words returned as they are in `v`. -/
def withHostPart (s v : State) : State :=
  { s with hostErr := v.hostErr, ieDone := v.ieDone, ieErr := v.ieErr, returned := v.returned }

theorem hostRead_eq_withHostPart (s : State) (offset bytes : Nat) :
    s.hostRead offset bytes = withHostPart s (s.hostRead offset bytes) := by
  obtain ⟨l, -, -, h⟩ | h := s.hostRead_cases offset bytes <;> rw [h] <;> rfl

/-- While BUSY is 1 a write sets the enables or is refused, unless it is a reset (R56). -/
theorem hostWrite_eq_withHostPart {s : State} (hbusy : s.busy = true) {offset bytes : Nat} {d : Word}
    (hno : NoReset (.write offset bytes d)) :
    s.hostWrite offset bytes d = withHostPart s (s.hostWrite offset bytes d) := by
  by_cases hctrl : offset = 0x10 ∧ bytes = 4
  · obtain ⟨rfl, rfl⟩ := hctrl
    have hd : d.getLsbD 0 = false := by simpa [NoReset] using hno
    rw [hostWrite_ctrl, writeCtrl_enables s hd]
    rfl
  · rw [s.hostWrite_not_idle offset bytes d ((not_idle_iff s).2 (.inl hbusy)) hctrl]
    rfl

/-- Settles O50: a read, and a write that is refused or sets the enables. -/
theorem busyStateFrozen : Obligations.BusyStateFrozen := by
  intro s e hbusy hno
  cases e with
  | read offset bytes => exact ⟨_, after_read s offset bytes, hostRead_eq_withHostPart s offset bytes⟩
  | write offset bytes d => exact ⟨_, after_write s offset bytes d, hostWrite_eq_withHostPart hbusy hno⟩
  | hardReset => exact hno.elim
  | sequencer => exact hno.elim

/-! ### No command reads that part -/

/-- A branch commutes with a map over the results of its two arms, however its test is decided. -/
theorem ite_eq_map {ε α β : Type} {c : Prop} {dec dec' : Decidable c} {f : α → β} {x y : Except ε α}
    {x' y' : Except ε β} (hx : x' = x.map f) (hy : y' = y.map f) :
    @ite _ c dec x' y' = (@ite _ c dec' x y).map f := by
  by_cases hc : c
  · rw [if_pos hc, if_pos hc, hx]
  · rw [if_neg hc, if_neg hc, hy]

section
variable (s v : State)

theorem withHostPart_withHostPart (u : State) : withHostPart (withHostPart s u) v = withHostPart s v := rfl

@[simp] theorem withHostPart_big (i : BReg) : (withHostPart s v).big i = s.big i := rfl
@[simp] theorem withHostPart_point (p : PReg) : (withHostPart s v).point p = s.point p := rfl
@[simp] theorem withHostPart_busy : (withHostPart s v).busy = s.busy := rfl
@[simp] theorem withHostPart_fetch : (withHostPart s v).fetch = s.fetch := rfl
@[simp] theorem withHostPart_iptr : (withHostPart s v).iptr = s.iptr := rfl
@[simp] theorem withHostPart_ibuf : (withHostPart s v).ibuf = s.ibuf := rfl
@[simp] theorem withHostPart_pointersOk : (withHostPart s v).pointersOk = s.pointersOk := rfl
@[simp] theorem withHostPart_avail : (withHostPart s v).avail = s.avail := rfl
@[simp] theorem withHostPart_room : (withHostPart s v).room = s.room := rfl
@[simp] theorem withHostPart_parseUnit (pos : Nat) : (withHostPart s v).parseUnit pos = s.parseUnit pos := rfl

theorem setPoint_withHostPart (p : PReg) (P : Point) :
    (withHostPart s v).setPoint p P = withHostPart (s.setPoint p P) v := by
  cases P <;> rfl

theorem store_withHostPart (l : List Byte) :
    (withHostPart s v).store l = (s.store l).map (withHostPart · v) := by
  simp only [State.store, withHostPart_pointersOk, withHostPart_room]
  exact ite_eq_map rfl (ite_eq_map rfl rfl)

theorem pointRule_withHostPart (pd : PReg) (p : Nat) (l : List Point) (res : Except CoreFault Point) :
    pointRule (withHostPart s v) pd p l res = (pointRule s pd p l res).map (withHostPart · v) := by
  simp only [pointRule]
  cases pointChecks p l with
  | error f => rfl
  | ok _ =>
    cases res with
    | error f => rfl
    | ok P => exact congrArg Except.ok (setPoint_withHostPart s v pd P)

theorem montmulRule_withHostPart (bd ba bb bn : BReg) :
    montmulRule bd ba bb bn (withHostPart s v) = (montmulRule bd ba bb bn s).map (withHostPart · v) := by
  simp only [montmulRule, withHostPart_big]
  exact ite_eq_map rfl (ite_eq_map rfl rfl)

theorem modexpRule_withHostPart (bd ba be bn : BReg) :
    modexpRule bd ba be bn (withHostPart s v) = (modexpRule bd ba be bn s).map (withHostPart · v) := by
  simp only [modexpRule, withHostPart_big]
  exact ite_eq_map rfl rfl

theorem modinvRule_withHostPart (bd ba bn : BReg) :
    modinvRule bd ba bn (withHostPart s v) = (modinvRule bd ba bn s).map (withHostPart · v) := by
  simp only [modinvRule, withHostPart_big]
  refine ite_eq_map rfl ?_
  cases inverse (s.big ba) (s.big bn) <;> rfl

theorem ldblkRule_withHostPart (bd bn : BReg) :
    ldblkRule bd bn (withHostPart s v) = (ldblkRule bd bn s).map (withHostPart · v) := by
  simp only [ldblkRule, withHostPart_pointersOk, withHostPart_big]
  exact ite_eq_map rfl (ite_eq_map rfl (ite_eq_map rfl rfl))

theorem rdunitRule_withHostPart (bd : BReg) :
    rdunitRule bd (withHostPart s v) = (rdunitRule bd s).map (withHostPart · v) := by
  simp only [rdunitRule, withHostPart_pointersOk, withHostPart_iptr, withHostPart_parseUnit]
  refine ite_eq_map rfl ?_
  cases s.parseUnit s.iptr.toNat <;> rfl

theorem rdptRule_withHostPart (pd : PReg) :
    rdptRule pd (withHostPart s v) = (rdptRule pd s).map (withHostPart · v) := by
  simp only [rdptRule, withHostPart_pointersOk, withHostPart_avail, withHostPart_iptr, withHostPart_ibuf,
    withHostPart_parseUnit, setPoint_withHostPart]
  refine ite_eq_map rfl (ite_eq_map rfl (ite_eq_map rfl (ite_eq_map ?_ rfl)))
  cases s.parseUnit (s.iptr.toNat + 1) with
  | error f => rfl
  | ok x =>
    dsimp only
    cases s.parseUnit x.2 <;> rfl

/-- A rule neither reads that part nor writes it. -/
theorem ruleOf_withHostPart (i : Instr) :
    ruleOf i (withHostPart s v) = (ruleOf i s).map (withHostPart · v) := by
  cases i with
  | montmul bd ba bb bn => exact montmulRule_withHostPart s v bd ba bb bn
  | modexp bd ba be bn => exact modexpRule_withHostPart s v bd ba be bn
  | modinv bd ba bn => exact modinvRule_withHostPart s v bd ba bn
  | gcd bd ba bb => rfl
  | padd | pdbl | pmul | pneg =>
    simp only [ruleOf, withHostPart_big, withHostPart_point, pointRule_withHostPart]
  | ldblk bd bn => exact ldblkRule_withHostPart s v bd bn
  | stint | wrunit | wrpt => exact store_withHostPart s v _
  | rdunit bd => exact rdunitRule_withHostPart s v bd
  | rdpt pd => exact rdptRule_withHostPart s v pd

end

/-- The completion step commutes with a change of that part. -/
theorem exec_withHostPart {i : Instr} {s u : State} (v : State) (h : exec i s = .next u) :
    exec i (withHostPart s v) = .next (withHostPart u v) := by
  rw [exec_eq] at h
  rw [exec_eq, ruleOf_withHostPart]
  unfold State.complete at h ⊢
  split at h
  · rename_i hw
    rw [if_pos hw]
    split at h <;> rename_i hr <;> cases h <;> rw [hr] <;> rfl
  · rename_i hw
    cases h
    rw [if_neg hw]
    rfl

theorem sequence_withHostPart {s u : State} (v : State) (h : s.sequence = .next u) :
    (withHostPart s v).sequence = .next (withHostPart u v) := by
  rw [State.sequence] at h ⊢
  rw [withHostPart_busy, withHostPart_fetch]
  split at h
  · rename_i hbusy
    rw [if_pos hbusy]
    split at h
    · exact exec_withHostPart v h
    · cases h
      rfl
  · rename_i hbusy
    cases h
    rw [if_neg hbusy]

/-! ### Polling -/

theorem exists_sequence (s : State) : ∃ t, s.sequence = .next t := by
  rw [State.sequence]
  split
  · split
    · rw [exec_eq]
      exact s.complete_next _ _
    · exact ⟨_, rfl⟩
  · exact ⟨s, rfl⟩

theorem run_succ {M : Host.Core} {s t : M.State} (h : M.step s = .next t) (n : Nat) :
    M.run (n + 1) s = M.run n t := by
  rw [Host.Core.run, h]

/-- The step that delivers the first pending event, as `after` of the others. -/
theorem step_eq_after {s : State} {e : Event} {es : List Event} (h : s.pending = e :: es) :
    step s = after { s with pending := es } e := by
  rw [step_cons s e es h, after_eq_deliver]

/-- Settles O51, by induction on the pending accesses: each changes the host's part alone (`busyStateFrozen`), and
the sequencer's move commutes with that change (`sequence_withHostPart`). -/
theorem pollingChangesNoResult : Obligations.PollingChangesNoResult := by
  intro es
  induction es with
  | nil =>
    intro s _ hp _
    obtain ⟨t, ht⟩ := exists_sequence s
    rw [← step_nil s hp] at ht
    have hs : ({ s with pending := [] } : State) = s := by rw [← hp]
    exact ⟨t, t, run_succ (M := Sys2Proof.core) ht 0, by rw [hs, ht], rfl⟩
  | cons e es ih =>
    intro s hbusy hp hno
    obtain ⟨he, hes⟩ := List.forall_mem_cons.1 hno
    obtain ⟨s', hs', hhost⟩ := busyStateFrozen { s with pending := es } e hbusy he
    have hbusy' : s'.busy = true := by rw [hhost]; exact hbusy
    have hp' : s'.pending = es := by rw [hhost]
    obtain ⟨t, u', hrun, hu', ht⟩ := ih s' hbusy' hp' hes
    obtain ⟨u, hu⟩ := exists_sequence { s with pending := [] }
    have hdue : ({ s' with pending := [] } : State) = withHostPart { s with pending := [] } s' := by
      rw [hhost]; rfl
    have hmove : u' = withHostPart u s' := by
      rw [step_nil _ rfl, hdue, sequence_withHostPart s' hu] at hu'
      cases hu'
      rfl
    refine ⟨t, u, ?_, by rw [step_nil _ rfl, hu], ?_⟩
    · rw [List.length_cons, run_succ (M := Sys2Proof.core) ((step_eq_after hp).trans hs'), hrun]
    · change t = withHostPart u t
      rw [← withHostPart_withHostPart u t s', ← hmove]
      exact ht

end Sys2Proof.Proofs
end

section
/-! PROOFS. The command words of 30_encoding.md: a word decodes exactly to the well-formed command it encodes (R70,
R83), the rows of the opcode map are the commands (R72), and every other word is rejected by a field (R74). -/

namespace Sys2Proof.Proofs

open Sys2Proof Sys2Proof.Machine Sys2Proof.Claims

/-! ### Decoding and encoding are inverse -/

/-- A packed word is `w` exactly when its fields are those of `w` (R70). -/
theorem packR5_eq_iff {op : BitVec 8} {f1 f2 f3 f4 f5 : BitVec 4} {w : Word} :
    packR5 op f1 f2 f3 f4 f5 = w ↔
      opField w = op ∧ field1 w = f1 ∧ field2 w = f2 ∧ field3 w = f3 ∧ field4 w = f4 ∧ field5 w = f5 ∧
        zField w = 0#4 := by
  constructor
  · rintro rfl
    exact ⟨opField_packR5 .., field1_packR5 .., field2_packR5 .., field3_packR5 .., field4_packR5 ..,
      field5_packR5 .., zField_packR5 ..⟩
  · rintro ⟨rfl, rfl, rfl, rfl, rfl, rfl, hz⟩
    exact packR5_fields w hz

/-- The word of a well-formed command passes every test of R83. -/
theorem decode_encode {i : Instr} (hw : i.wellFormed = true) : decode (encode i) = .ok i := by
  cases i <;>
    exact (decode_packR5 ..).trans ((accept_eq_ok ..).2 ⟨by simp, hw, rfl⟩)

/-- What decodes is the word of a well-formed command: its `op` selects the term, and the fields that the term leaves
out are 0. -/
theorem encode_of_decode {w : Word} {i : Instr} (h : decode w = .ok i) : encode i = w ∧ i.wellFormed = true := by
  unfold decode at h
  split at h
  · cases h
  · rename_i hz
    have hz : zField w = 0#4 := by simpa using hz
    split at h
    case h_15 => cases h
    all_goals
      rename_i hop
      obtain ⟨hunused, hw, rfl⟩ := (accept_eq_ok ..).1 h
      simp only [List.forall_mem_cons, List.not_mem_nil, false_imp_iff, implies_true, and_true] at hunused
      refine ⟨packR5_eq_iff.2 ⟨BitVec.eq_of_toNat_eq hop, ?_⟩, hw⟩
      simp [hunused, hz]

theorem decode_eq_ok_iff {w : Word} {i : Instr} : decode w = .ok i ↔ encode i = w ∧ i.wellFormed = true := by
  constructor
  · exact encode_of_decode
  · rintro ⟨rfl, hw⟩
    exact decode_encode hw

/-- Settles O1, from `decode_encode`. -/
theorem decodeEncode : Obligations.DecodeEncode := fun _ => decode_encode

/-- Settles O2, from `encode_of_decode`. -/
theorem encodeDecode : Obligations.EncodeDecode := fun _ _ => encode_of_decode

/-- Settles O5: the six commands by their encodings (`decode_encode`), the four rejections by the test each fails. -/
theorem wordsOfTheVectors : Obligations.WordsOfTheVectors :=
  ⟨decode_encode (i := .montmul 3 0 1 2) rfl, decode_encode (i := .modexp 15 15 15 15) rfl,
    decode_encode (i := .padd 5 4 3 12 13) rfl, decode_encode (i := .pmul 7 7 15 15 15) rfl,
    decode_encode (i := .ldblk 4 3) rfl, decode_encode (i := .rdpt 1) rfl, rfl, rfl, rfl, rfl⟩

/-! ### The rows of the opcode map -/

/-- The word of a well-formed command matches the row of its mnemonic, as the laws say per instruction. -/
theorem encodesToItsRow (i : Instr) : Laws.EncodesToItsRow.Statement i := by
  cases i with
  | montmul bd ba bb bn => exact Laws.EncodesToItsRow.montmul bd ba bb bn
  | modexp bd ba be bn => exact Laws.EncodesToItsRow.modexp bd ba be bn
  | modinv bd ba bn => exact Laws.EncodesToItsRow.modinv bd ba bn
  | gcd bd ba bb => exact Laws.EncodesToItsRow.gcd bd ba bb
  | padd pd pa pb bA bn => exact Laws.EncodesToItsRow.padd pd pa pb bA bn
  | pdbl pd pa bA bn => exact Laws.EncodesToItsRow.pdbl pd pa bA bn
  | pmul pd pa bk bA bn => exact Laws.EncodesToItsRow.pmul pd pa bk bA bn
  | pneg pd pa bn => exact Laws.EncodesToItsRow.pneg pd pa bn
  | ldblk bd bn => exact Laws.EncodesToItsRow.ldblk bd bn
  | stint bs => exact Laws.EncodesToItsRow.stint bs
  | wrunit bs => exact Laws.EncodesToItsRow.wrunit bs
  | rdunit bd => exact Laws.EncodesToItsRow.rdunit bd
  | wrpt ps => exact Laws.EncodesToItsRow.wrpt ps
  | rdpt pd => exact Laws.EncodesToItsRow.rdpt pd

/-- No two rows bear one mnemonic. -/
theorem row_eq_of_mnemonic_eq : ∀ r ∈ opcodeMap, ∀ r' ∈ opcodeMap, r.mnemonic = r'.mnemonic → r = r' := by
  decide

/-- A masked word is compared field by field. -/
theorem fields_of_and_eq {w m p : Word} (h : w &&& m = p) :
    opField w &&& m.extractLsb' 24 8 = p.extractLsb' 24 8 ∧ field1 w &&& m.extractLsb' 20 4 = p.extractLsb' 20 4 ∧
      field2 w &&& m.extractLsb' 16 4 = p.extractLsb' 16 4 ∧ field3 w &&& m.extractLsb' 12 4 = p.extractLsb' 12 4 ∧
      field4 w &&& m.extractLsb' 8 4 = p.extractLsb' 8 4 ∧ field5 w &&& m.extractLsb' 4 4 = p.extractLsb' 4 4 ∧
      zField w &&& m.extractLsb' 0 4 = p.extractLsb' 0 4 := by
  subst h
  simp only [opField, field1, field2, field3, field4, field5, zField, BitVec.extractLsb'_and, and_self]

/-- An opcode masked by ones is the opcode. -/
theorem and_opcodeMask (op : BitVec 8) : op &&& 255#8 = op := BitVec.and_allOnes

/-- A field masked by ones is the field. -/
theorem and_fieldMask (f : BitVec 4) : f &&& 15#4 = f := BitVec.and_allOnes

/-- A word that matches a row is the word of a command with the row's mnemonic. -/
theorem exists_decode_of_and_eq {r : Row} (hr : r ∈ opcodeMap) {w : Word} (h : w &&& r.mask = r.pattern) :
    ∃ i, decode w = .ok i ∧ i.mnemonic = r.mnemonic := by
  suffices hi : ∃ i, i.wellFormed = true ∧ encode i = w ∧ i.mnemonic = r.mnemonic by
    obtain ⟨i, hw, henc, hm⟩ := hi
    exact ⟨i, decode_eq_ok_iff.2 ⟨henc, hw⟩, hm⟩
  have h := fields_of_and_eq h
  simp only [opcodeMap, List.mem_cons, List.not_mem_nil, or_false] at hr
  obtain rfl | rfl | rfl | rfl | rfl | rfl | rfl | rfl | rfl | rfl | rfl | rfl | rfl | rfl := hr
  -- What the row's mask and match say of each field.
  all_goals
    simp only [BitVec.ofNat_eq_ofNat, BitVec.reduceExtractLsb', and_opcodeMask, and_fieldMask, BitVec.and_zero,
      true_and] at h
  · exact ⟨.montmul (field1 w) (field2 w) (field3 w) (field4 w), rfl, packR5_eq_iff.2 (by simp [h]), rfl⟩
  · exact ⟨.modexp (field1 w) (field2 w) (field3 w) (field4 w), rfl, packR5_eq_iff.2 (by simp [h]), rfl⟩
  · exact ⟨.modinv (field1 w) (field2 w) (field3 w), rfl, packR5_eq_iff.2 (by simp [h]), rfl⟩
  · exact ⟨.gcd (field1 w) (field2 w) (field3 w), rfl, packR5_eq_iff.2 (by simp [h]), rfl⟩
  · exact ⟨.padd (field1 w) (field2 w) (field3 w) (field4 w) (field5 w),
      by simp [Instr.wellFormed, isPoint_iff_and, h], packR5_eq_iff.2 (by simp [h]), rfl⟩
  · exact ⟨.pdbl (field1 w) (field2 w) (field3 w) (field4 w),
      by simp [Instr.wellFormed, isPoint_iff_and, h], packR5_eq_iff.2 (by simp [h]), rfl⟩
  · exact ⟨.pmul (field1 w) (field2 w) (field3 w) (field4 w) (field5 w),
      by simp [Instr.wellFormed, isPoint_iff_and, h], packR5_eq_iff.2 (by simp [h]), rfl⟩
  · exact ⟨.pneg (field1 w) (field2 w) (field3 w),
      by simp [Instr.wellFormed, isPoint_iff_and, h], packR5_eq_iff.2 (by simp [h]), rfl⟩
  · exact ⟨.ldblk (field1 w) (field2 w), rfl, packR5_eq_iff.2 (by simp [h]), rfl⟩
  · exact ⟨.stint (field1 w), rfl, packR5_eq_iff.2 (by simp [h]), rfl⟩
  · exact ⟨.wrunit (field1 w), rfl, packR5_eq_iff.2 (by simp [h]), rfl⟩
  · exact ⟨.rdunit (field1 w), rfl, packR5_eq_iff.2 (by simp [h]), rfl⟩
  · exact ⟨.wrpt (field1 w),
      by simp [Instr.wellFormed, isPoint_iff_and, h], packR5_eq_iff.2 (by simp [h]), rfl⟩
  · exact ⟨.rdpt (field1 w),
      by simp [Instr.wellFormed, isPoint_iff_and, h], packR5_eq_iff.2 (by simp [h]), rfl⟩

/-- Settles O3: the command of a matching word bears the row's mnemonic, and a mnemonic stands in one row. -/
theorem opcodeMapExact : Obligations.OpcodeMapExact := by
  refine ⟨fun r hr w => ⟨exists_decode_of_and_eq hr, ?_⟩, fun r hr r' hr' w h h' => ?_⟩
  · rintro ⟨i, hi, hm⟩
    obtain ⟨rfl, hw⟩ := encode_of_decode hi
    obtain ⟨r', hr', hm', hmatch⟩ := encodesToItsRow i hw
    rwa [row_eq_of_mnemonic_eq r hr r' hr' (hm.symm.trans hm'.symm)]
  · obtain ⟨i, hi, hm⟩ := exists_decode_of_and_eq hr h
    obtain ⟨j, hj, hm'⟩ := exists_decode_of_and_eq hr' h'
    obtain rfl : i = j := Except.ok.inj (hi.symm.trans hj)
    exact row_eq_of_mnemonic_eq r hr r' hr' (hm.symm.trans hm')

/-! ### The words that are no commands -/

/-- What `accept` rejects: a field that must be 0 and is not, or a point field of 8 to 15 (R83). -/
theorem accept_eq_error_iff {unused : List (BitVec 4)} {i : Instr} :
    (∃ e, accept unused i = .error e) ↔ (∃ f ∈ unused, f ≠ 0#4) ∨ i.wellFormed = false := by
  unfold accept
  split
  · rename_i hany
    exact iff_of_true ⟨_, rfl⟩ (.inl (by simpa using hany))
  · rename_i hzero
    split
    · rename_i hw
      exact iff_of_false (by simp) (by simpa [hw] using hzero)
    · rename_i hw
      exact iff_of_true ⟨_, rfl⟩ (.inr (by simpa using hw))

theorem isPoint_eq_false_iff (f : PReg) : isPoint f = false ↔ 8 ≤ f.toNat := by
  simp [isPoint]

/-- Settles O4, by the tests of R83 in their order: `z`, the opcode, and for each opcode what `accept` rejects. -/
theorem notACommandExactly : Obligations.NotACommandExactly := by
  intro w
  unfold decode
  by_cases hz : zField w = 0#4
  · simp only [hz, bne_self_eq_false, Bool.false_eq_true, if_false]
    split
    case h_15 => exact iff_of_true ⟨_, rfl⟩ (.inr (.inl (by simp_all)))
    all_goals
      rename_i hop
      rw [accept_eq_error_iff]
      simp [hop, Instr.wellFormed, isPoint_eq_false_iff, Bool.and_eq_false_iff, -Bool.and_eq_false_imp, or_assoc,
        or_comm]
  · simp [hz]

end Sys2Proof.Proofs
end

section
/-! PROOFS. Issue and completion (30_encoding.md R79, R80): when a word is accepted, what the sequencer's move runs,
what a completion leaves as it was, and that every run goes on and brings a busy CORE to rest. -/

namespace Sys2Proof.Proofs

open Sys2Proof Sys2Proof.Machine Sys2Proof.Claims

/-! ### The sequencer's move -/

theorem sequence_of_decode_ok {s : State} {i : Instr} (hbusy : s.busy = true) (hi : decode s.cmd = .ok i) :
    s.sequence = exec i s := by
  rw [State.sequence, if_pos hbusy, State.fetch, hi]

theorem sequence_of_decode_error {s : State} {e : Reject} (hbusy : s.busy = true) (he : decode s.cmd = .error e) :
    s.sequence = .next (s.faultEntry .unsupportedCommand) := by
  rw [State.sequence, if_pos hbusy, State.fetch, he]
  rfl

theorem sequence_of_not_busy {s : State} (hbusy : s.busy = false) : s.sequence = .next s := by
  rw [State.sequence, hbusy]
  rfl

theorem after_sequencer (s : State) : after s .sequencer = s.sequence := rfl

/-- Settles O6: a step with the sequencer next is `sequence`, which has three cases by BUSY and CMD. -/
theorem stepRunsCommand : Obligations.StepRunsCommand := by
  refine fun s => ⟨fun i hbusy hi hp => ?_, fun i hbusy hi => ?_, fun e hbusy he => ?_, fun hbusy => ?_⟩
  · rw [step_nil s hp, sequence_of_decode_ok hbusy hi]
  · rw [after_sequencer, sequence_of_decode_ok hbusy hi]
  · rw [after_sequencer, sequence_of_decode_error hbusy he]
    rfl
  · rw [after_sequencer, sequence_of_not_busy hbusy]

/-! ### A word comes to run -/

theorem withFetchWord_toNat (s : State) (w : Word) : s.withFetchWord 32 w.toNat = s.loadCommand w := by
  rw [State.withFetchWord, BitVec.toNat_mod_cancel, BitVec.ofNat_toNat, BitVec.setWidth_eq]

/-- Settles O7: the placed word leaves the sequencer's event first, BUSY set and the word in CMD. -/
theorem placedWordRuns : Obligations.PlacedWordRuns := by
  intro s w i hi
  rw [withFetchWord_toNat, step_cons _ .sequencer s.pending rfl]
  exact sequence_of_decode_ok rfl hi

/-- Settles O9: offset 0 names CMD, whose write is performed exactly while CORE is idle (R56, R79). -/
theorem acceptanceExactly : Obligations.AcceptanceExactly := by
  intro s w
  by_cases h : s.busy = false ∧ s.err = false
  · rw [if_pos h]
    exact after_write_performed (l := .ctl .cmd) rfl (if_pos ((idle_iff s).2 h))
  · rw [if_neg h]
    have hidle : s.idle = false := Bool.eq_false_iff.2 fun hi => h ((idle_iff s).1 hi)
    exact after_write_refused (s.hostWrite_not_idle 0 4 w hidle (by decide))

/-! ### Completion -/

/-- Settles O11: no rule writes what R80 leaves alone (`ruleOf_keeps`), and fault entry is the five assignments of
R206. -/
theorem completionFrame : Obligations.CompletionFrame := by
  intro i s
  obtain ⟨t, ht⟩ := s.complete_next i (ruleOf i s)
  rw [← exec_eq] at ht
  refine ⟨t, ht, ?_⟩
  obtain ⟨-, u, hu, rfl⟩ | ⟨f, -, rfl⟩ := exec_cases i s t ht
  · have keeps := ruleOf_keeps i s u hu
    exact ⟨rfl, .inl ⟨rfl, keeps.err, keeps.cause, keeps.errPos⟩, keeps.cfg, keeps.cmd, keeps.hostErr,
      keeps.ieDone, keeps.ieErr, keeps.ilen, fun a => congrArg (·.read a) keeps.ibuf, keeps.pending, keeps.returned⟩
  · exact ⟨rfl, .inr ⟨rfl, rfl⟩, rfl, rfl, rfl, rfl, rfl, rfl, fun _ => rfl, rfl, rfl⟩

/-- The sequencer's move leaves BUSY 0 and takes no event. -/
theorem sequence_rests (s : State) : ∃ t, s.sequence = .next t ∧ t.busy = false ∧ t.pending = s.pending := by
  obtain ⟨t, ht⟩ := exists_sequence s
  refine ⟨t, ht, ?_⟩
  obtain ⟨hbusy, rfl⟩ | ⟨-, i, -, hexec⟩ | ⟨-, -, rfl⟩ := s.sequence_cases t ht
  · exact ⟨hbusy, rfl⟩
  · obtain ⟨u, hu, hbusy, -, -, -, -, -, -, -, -, hpending, -⟩ := completionFrame i s
    obtain rfl : u = t := by rw [hexec] at hu; cases hu; rfl
    exact ⟨hbusy, hpending⟩
  · exact ⟨rfl, rfl⟩

/-! ### Every run goes on -/

theorem hostRead_pending (s : State) (offset bytes : Nat) : (s.hostRead offset bytes).pending = s.pending := by
  rw [hostRead_eq_withHostPart]
  rfl

theorem hostWrite_pending (s : State) (offset bytes : Nat) (d : Word) :
    (s.hostWrite offset bytes d).pending = s.pending := by
  obtain h | ⟨-, -, h⟩ | ⟨-, h | h | h | h | h | ⟨_, _, -, h⟩ | ⟨_, -, -, h⟩ | ⟨_, -, -, h⟩⟩ :=
    s.hostWrite_cases offset bytes d
  case inr.inl => obtain ⟨-, h'⟩ | ⟨-, h'⟩ := s.writeCtrl_cases d <;> simp [h, h']
  all_goals simp [h]

/-- The delivery of an event answers a next state, and the events behind it wait on. -/
theorem deliver_next (s : State) (e : Event) : ∃ t, s.deliver e = .next t ∧ t.pending = s.pending := by
  cases e with
  | read offset bytes => exact ⟨_, rfl, hostRead_pending s offset bytes⟩
  | write offset bytes d => exact ⟨_, rfl, hostWrite_pending s offset bytes d⟩
  | hardReset => exact ⟨_, rfl, rfl⟩
  | sequencer =>
    obtain ⟨t, ht, -, hp⟩ := sequence_rests s
    exact ⟨t, ht, hp⟩

theorem exists_step (s : State) : ∃ t, step s = .next t := by
  cases hp : s.pending with
  | nil =>
    rw [step_nil s hp]
    exact exists_sequence s
  | cons e es =>
    rw [step_cons s e es hp]
    obtain ⟨t, ht, -⟩ := deliver_next { s with pending := es } e
    exact ⟨t, ht⟩

/-- Settles O10, by induction on the number of steps. -/
theorem everyRunGoesOn : Obligations.EveryRunGoesOn := by
  intro s k
  induction k generalizing s with
  | zero => exact ⟨s, rfl⟩
  | succ k ih =>
    obtain ⟨t, ht⟩ := exists_step s
    rw [run_succ (M := Sys2Proof.core) ht]
    exact ih t

/-- One step more than there are pending events leaves BUSY 0: each step takes one, and with none left the sequencer
moves. -/
theorem run_past_pending {es : List Event} {s : State} (hp : s.pending = es) :
    ∃ t, Sys2Proof.core.run (es.length + 1) s = .next t ∧ t.busy = false := by
  induction es generalizing s with
  | nil =>
    obtain ⟨t, ht, hbusy, -⟩ := sequence_rests s
    rw [← step_nil s hp] at ht
    exact ⟨t, run_succ (M := Sys2Proof.core) ht 0, hbusy⟩
  | cons e es ih =>
    obtain ⟨s', hs', hp'⟩ := deliver_next { s with pending := es } e
    rw [← step_cons s e es hp] at hs'
    obtain ⟨t, hrun, hbusy⟩ := ih hp'
    exact ⟨t, (run_succ (M := Sys2Proof.core) hs' _).trans hrun, hbusy⟩

/-- Settles O12, with the number of steps of `run_past_pending`. -/
theorem busyComesToRest : Obligations.BusyComesToRest := by
  intro s _
  obtain ⟨t, hrun, hbusy⟩ := run_past_pending (s := s) rfl
  exact ⟨_, le_rfl, t, hrun, hbusy⟩

end Sys2Proof.Proofs
end

section
/-! PROOFS. The big-integer unit (40_bigint.md): that the datapaths of R94, R101, R102, R105 and R109 compute the
values of R92, R100, R104 and R108, and what the four commands leave. -/

namespace Sys2Proof.Proofs

open Sys2Proof Sys2Proof.Machine Sys2Proof.Claims

/-! ### The multiplier -/

theorem coprime_two_pow {n : Nat} (hn : n % 2 = 1) (W : Nat) : Nat.Coprime (2 ^ W) n :=
  (Nat.coprime_two_left.2 (Nat.odd_iff.2 hn)).pow_left W

/-- The radix has an inverse for every odd modulus, and only one (R96). -/
theorem exists_isRinv {n : Nat} (hn : n % 2 = 1) (W : Nat) : ∃ r, IsRinv W n r := by
  obtain ⟨hgcd, -⟩ | ⟨-, r, -, hlt, hr⟩ := inverse_cases (2 ^ W) n (by omega)
  · exact absurd (coprime_two_pow hn W) hgcd
  · refine ⟨r, hlt, mul_comm r _ ▸ hr, fun r' hlt' hr' => ?_⟩
    exact inverse_unique (2 ^ W) n r' r hlt' hlt (mul_comm r' _ ▸ hr') hr

/-- The multiplier divides by the radix modulo `n` (R92, R94): whatever number times `2^W` its operands' product is
congruent to, its result is that number reduced. -/
theorem montMul_eq_mod {W x y n c : Nat} (hn : n % 2 = 1) (hx : x < 2 ^ W) (hy : y < n)
    (hc : x * y ≡ c * 2 ^ W [MOD n]) : montMul W x y n = c % n := by
  have hmul : montMul W x y n * 2 ^ W ≡ c * 2 ^ W [MOD n] := (montMul_modEq W x y n hn hx).trans hc
  have hcancel : montMul W x y n ≡ c [MOD n] := hmul.cancel_right_of_coprime (coprime_two_pow hn W).symm
  exact (Nat.mod_eq_of_modEq hcancel.symm (montMul_lt W x y n hn hy)).symm

theorem montMul_eq_mul_rinv {W x y n r : Nat} (hn : n % 2 = 1) (hx : x < 2 ^ W) (hy : y < n) (hr : IsRinv W n r) :
    montMul W x y n = x * y * r % n := by
  obtain ⟨-, hinv, -⟩ := hr
  refine montMul_eq_mod hn hx hy ?_
  calc x * y = x * y * 1 := (mul_one _).symm
    _ ≡ x * y * (r * 2 ^ W) [MOD n] := Nat.ModEq.mul_left _ (Nat.ModEq.symm hinv)
    _ = x * y * r * 2 ^ W := (mul_assoc _ _ _).symm

section Montgomery

variable {W n : Nat} (hn : n % 2 = 1) (hW : n < 2 ^ W)
include hn hW

/-- The product by `2^(2W) mod n` puts a reduced number in Montgomery form (R97). -/
theorem montMul_radix_sq {u : Nat} (hu : u < n) : montMul W u (2 ^ (2 * W) % n) n = u * 2 ^ W % n := by
  refine montMul_eq_mod hn (hu.trans hW) (Nat.mod_lt _ (by omega)) ?_
  calc u * (2 ^ (2 * W) % n) ≡ u * 2 ^ (2 * W) [MOD n] := (Nat.mod_modEq _ n).mul_left u
    _ = u * 2 ^ W * 2 ^ W := by rw [two_mul, pow_add, mul_assoc]

/-- The product of a number in Montgomery form by a plain one is plain (R97). -/
theorem montMul_form_plain (u : Nat) {v : Nat} (hv : v < n) : montMul W (u * 2 ^ W % n) v n = u * v % n := by
  refine montMul_eq_mod hn ((Nat.mod_lt _ (by omega)).trans hW) hv ?_
  calc u * 2 ^ W % n * v ≡ u * 2 ^ W * v [MOD n] := (Nat.mod_modEq _ n).mul_right v
    _ = u * v * 2 ^ W := mul_right_comm u _ v

/-- The product of two numbers in Montgomery form is in Montgomery form (R101). -/
theorem montMul_form_form (u v : Nat) :
    montMul W (u * 2 ^ W % n) (v * 2 ^ W % n) n = u * v * 2 ^ W % n := by
  rw [montMul_form_plain hn hW u (Nat.mod_lt _ (by omega)), Nat.mul_mod_mod, mul_assoc]

end Montgomery

/-! ### The exponentiation engine -/

/-- Square-and-multiply (R101, R102): where `P k u` says that `u` stands for the power `k` of the base, and the
product keeps that for a squaring and for a factor `x`, the loop comes from the exponent's bits above `count` to the
whole exponent. -/
theorem expLoop_induction {mul : Nat → Nat → Nat} {x e : Nat} {P : Nat → Nat → Prop}
    (square : ∀ k u, P k u → P (2 * k) (mul u u)) (multiply : ∀ k u, P k u → P (k + 1) (mul u x))
    (count acc : Nat) (h : P (e / 2 ^ count) acc) : P e (expLoop mul x e count acc) := by
  induction count generalizing acc with
  | zero => simpa [expLoop] using h
  | succ i ih =>
    have bits : e / 2 ^ i = 2 * (e / 2 ^ (i + 1)) + (e.testBit i).toNat := by
      rw [Nat.toNat_testBit, pow_succ, ← Nat.div_div_eq_div_mul]
      omega
    rw [expLoop]
    refine ih _ ?_
    rw [bits]
    cases e.testBit i with
    | false => exact square _ _ h
    | true => exact multiply _ _ (square _ _ h)

/-- No bit of the exponent stands above its bit length: the engine's loop starts at the power 0. -/
theorem div_two_pow_bitLength (e : Nat) : e / 2 ^ bitLength e = 0 :=
  Nat.div_eq_of_lt (lt_two_pow_bitLength e)

theorem modExpEven_eq (a e n : Nat) : modExpEven a e n = a ^ e % n := by
  refine expLoop_induction (P := fun k u => u = a ^ k % n) ?_ ?_ _ _ ?_
  · rintro k _ rfl
    rw [← Nat.mul_mod, ← pow_add, two_mul]
  · rintro k _ rfl
    rw [← Nat.mul_mod, ← pow_succ]
  · rw [div_two_pow_bitLength, pow_zero]

theorem modExpOdd_eq {W n : Nat} (a e : Nat) (hn : n % 2 = 1) (hW : n < 2 ^ W) : modExpOdd W a e n = a ^ e % n := by
  have base : montMul W (a % n) (2 ^ (2 * W) % n) n = a * 2 ^ W % n := by
    rw [montMul_radix_sq hn hW (Nat.mod_lt a (by omega)), Nat.mod_mul_mod]
  have loop : expLoop (fun u v => montMul W u v n) (a * 2 ^ W % n) e (bitLength e) (2 ^ W % n) = a ^ e * 2 ^ W % n := by
    refine expLoop_induction (P := fun k u => u = a ^ k * 2 ^ W % n) ?_ ?_ _ _ ?_
    · rintro k _ rfl
      rw [montMul_form_form hn hW, ← pow_add, two_mul]
    · rintro k _ rfl
      rw [montMul_form_form hn hW, pow_succ]
    · rw [div_two_pow_bitLength, pow_zero, one_mul]
  rw [modExpOdd, base, loop, montMul_form_plain hn hW _ (Nat.mod_lt 1 (by omega)), Nat.mul_mod_mod, mul_one]

/-- The engine computes the value of R100 on both of its paths. -/
theorem modExp_eq {W n : Nat} (a e : Nat) (hW : n < 2 ^ W) : modExp W a e n = a ^ e % n := by
  unfold modExp
  split
  · exact modExpOdd_eq a e ‹_› hW
  · exact modExpEven_eq a e n

/-! ### The four commands -/

/-- A completed write of one big register is the whole effect of a big-integer command (R90). -/
theorem bigResult_setBig (s : State) (d : BReg) (v : Nat) : BigResult s d v (s.setBig d v).succeed := by
  have completed : Completed s (s.setBig d v).succeed := by constructor <;> rfl
  exact ⟨completed, ⟨s.big_setBig_same d v, fun i => s.big_setBig_other d i v, rfl⟩, ⟨rfl, rfl, rfl⟩,
    fun _ => rfl, fun _ => rfl⟩

theorem exec_montmul_even {s : State} {bn : BReg} (bd ba bb : BReg) (hn : s.big bn % 2 = 0) :
    exec (.montmul bd ba bb bn) s = .next (faulted s 2 0) :=
  exec_error _ s .invalidParameter rfl (if_pos hn)

theorem exec_montmul_unreduced {s : State} {ba bb bn : BReg} (bd : BReg) (hn : s.big bn % 2 = 1)
    (h : s.big bn ≤ s.big ba ∨ s.big bn ≤ s.big bb) : exec (.montmul bd ba bb bn) s = .next (faulted s 2 0) :=
  exec_error _ s .invalidParameter rfl ((if_neg (by omega)).trans (if_pos h))

theorem exec_montmul_reduced {s : State} {ba bb bn : BReg} (bd : BReg) (hn : s.big bn % 2 = 1)
    (hx : s.big ba < s.big bn) (hy : s.big bb < s.big bn) :
    ∃ t, exec (.montmul bd ba bb bn) s = .next t ∧
      BigResult s bd (montMul s.cfg.width (s.big ba) (s.big bb) (s.big bn)) t :=
  ⟨_, exec_ok _ s _ rfl ((if_neg (by omega)).trans (if_neg (by omega))), bigResult_setBig s bd _⟩

/-- Settles O13: the three cases of the rule; the value is the multiplier's, by `montMul_eq_mul_rinv`. -/
theorem montmulMeaning : Obligations.MontmulMeaning := by
  refine fun s bd ba bb bn => ⟨decode_encode (i := .montmul bd ba bb bn) rfl, exec_montmul_even bd ba bb,
    exec_montmul_unreduced bd, fun hn hx hy hfit => ?_⟩
  obtain ⟨r, hr⟩ := exists_isRinv hn s.cfg.width
  refine ⟨r, hr, ?_⟩
  rw [← montMul_eq_mul_rinv hn (hfit ba) hy hr]
  exact exec_montmul_reduced bd hn hx hy

/-- Settles O14: the first product is the first operand in Montgomery form, and the second takes it out again. -/
theorem plainProductByMontmul : Obligations.PlainProductByMontmul := by
  intro s bd bt bu bv br bn hfit hn hu hv hr htv htn
  have hpos : 0 < s.big bn := by omega
  have hrlt : s.big br < s.big bn := hr ▸ Nat.mod_lt _ hpos
  obtain ⟨t, first, tDone, ⟨hform, hkept, -⟩, -⟩ := exec_montmul_reduced bt hn hu hrlt
  rw [hr, montMul_radix_sq hn (hfit bn) hu] at hform
  have hbv : t.big bv = s.big bv := hkept bv htv.symm
  have hbn : t.big bn = s.big bn := hkept bn htn.symm
  have hlt : t.big bt < t.big bn := by
    rw [hform, hbn]
    exact Nat.mod_lt _ hpos
  obtain ⟨u, second, uDone, ⟨hval, -⟩, -⟩ := exec_montmul_reduced bd (hbn ▸ hn) hlt (hbv ▸ hbn ▸ hv)
  refine ⟨t, u, first, second, uDone.done, ?_⟩
  rw [hval, tDone.cfg, hform, hbv, hbn, montMul_form_plain hn (hfit bn) _ hv]

/-- Settles O15: the value is the engine's, by `modExp_eq` on both parities. -/
theorem modexpMeaning : Obligations.ModexpMeaning := by
  refine fun s bd ba be bn => ⟨decode_encode (i := .modexp bd ba be bn) rfl,
    fun hn => exec_error _ s .invalidParameter rfl (if_pos hn), fun hn hfit => ?_⟩
  refine ⟨_, exec_ok _ s _ rfl (if_neg hn), ?_⟩
  rw [modExp_eq _ _ (hfit bn)]
  exact bigResult_setBig s bd _

/-- MODINV by a modulus that is not zero ends as the inverse unit answers (R104). -/
theorem ruleOf_modinv {s : State} {ba bn : BReg} (bd : BReg) (hn : s.big bn ≠ 0) :
    ruleOf (.modinv bd ba bn) s = (inverse (s.big ba) (s.big bn)).map (s.setBig bd) := by
  rw [ruleOf, modinvRule, if_neg hn]
  cases inverse (s.big ba) (s.big bn) <;> rfl

/-- Settles O16: the inverse unit's two answers; the inverse is unique by `inverse_unique`. -/
theorem modinvMeaning : Obligations.ModinvMeaning := by
  refine fun s bd ba bn => ⟨decode_encode (i := .modinv bd ba bn) rfl,
    fun hn => exec_error _ s .invalidParameter rfl (if_pos hn), fun hn hgcd => ?_, fun hn hgcd => ?_⟩
  · obtain ⟨-, hinv⟩ := (inverse_cases (s.big ba) (s.big bn) hn).resolve_right fun h => hgcd h.1
    exact exec_error _ s .arithmetic rfl (by rw [ruleOf_modinv bd hn, hinv]; rfl)
  · obtain ⟨-, v, hinv, hlt, hv⟩ := (inverse_cases (s.big ba) (s.big bn) hn).resolve_left fun h => h.1 hgcd
    refine ⟨v, hlt, hv, fun v' hlt' hv' => inverse_unique _ _ v' v hlt' hlt hv' hv, _, ?_, bigResult_setBig s bd v⟩
    exact exec_ok _ s _ rfl (by rw [ruleOf_modinv bd hn, hinv]; rfl)

/-- Settles O17: the rule has one case, and Euclid's loop ends at the gcd. -/
theorem gcdMeaning : Obligations.GcdMeaning := by
  refine fun s bd ba bb => ⟨decode_encode (i := .gcd bd ba bb) rfl, _, exec_ok _ s _ rfl rfl, ?_⟩
  rw [euclid, gcdLoop_eq _ _ _ le_rfl]
  exact bigResult_setBig s bd _

end Sys2Proof.Proofs
end

section
/-! PROOFS. The elliptic-curve units (41_ec.md): that the datapaths compute the formulas of R122, R125, R128 and R131
with the inverse of R132, what the four commands check and leave, and where they complete. -/

namespace Sys2Proof.Proofs

open Sys2Proof Sys2Proof.Machine Sys2Proof.Claims

/-! ### The inverse of a denominator -/

theorem gcd_intMod (v : Int) {p : Nat} (hp : p ≠ 0) : Nat.gcd (intMod v p) p = Int.gcd v p := by
  rw [← Int.gcd_natCast_natCast, intMod_cast v p hp, Int.gcd_emod]

theorem isInv_of_intMod_mul_modEq {v : Int} {p t : Nat} (hp : p ≠ 0) (ht : t < p) (h : intMod v p * t ≡ 1 [MOD p]) :
    IsInv v p t := by
  refine ⟨ht, ?_⟩
  have hcast : (intMod v p : Int) * t ≡ 1 [ZMOD p] := by exact_mod_cast Int.natCast_modEq_iff.2 h
  rw [intMod_cast v p hp] at hcast
  exact ((Int.mod_modEq v p).symm.mul_right t).trans hcast

/-- What `INV` answers (R132): ArithmeticError exactly when the gcd is not 1, else the inverse. -/
theorem invMod_cases (v : Int) {p : Nat} (hp : p ≠ 0) :
    (Int.gcd v p ≠ 1 ∧ invMod v p = .error .arithmetic) ∨
      (Int.gcd v p = 1 ∧ ∃ t, invMod v p = .ok t ∧ IsInv v p t) := by
  rw [← gcd_intMod v hp]
  obtain ⟨hgcd, hinv⟩ | ⟨hgcd, t, hinv, hlt, ht⟩ := inverse_cases (intMod v p) p hp
  · exact .inl ⟨hgcd, hinv⟩
  · exact .inr ⟨hgcd, t, hinv, isInv_of_intMod_mul_modEq hp hlt ht⟩

/-- A computation that only needs the inverse of `v` ends as the formulas of R122 and R125 say: with ArithmeticError
exactly when there is none. -/
theorem toOption_map_invMod (v : Int) {p : Nat} (hp : p ≠ 0) (f : Nat → Point) :
    if Int.gcd v p ≠ 1 then ((invMod v p).map f).toOption = none
    else ∃ inv, IsInv v p inv ∧ ((invMod v p).map f).toOption = some (f inv) := by
  obtain ⟨hgcd, hinv⟩ | ⟨hgcd, t, hinv, ht⟩ := invMod_cases v hp
  · rw [if_pos hgcd, hinv]
    rfl
  · rw [if_neg (not_not.2 hgcd), hinv]
    exact ⟨t, ht, rfl⟩

/-! ### The datapaths follow the formulas -/

theorem pointDouble_finite (x y a : Nat) {p : Nat} (hp : p ≠ 0) :
    pointDouble (.finite x y) a p =
      (invMod (2 * y) p).map fun inv : Nat => chord p ((3 * x * x + a) * inv % p) x y x := by
  simp only [pointDouble]
  cases invMod (2 * y) p with
  | error f => rfl
  | ok inv =>
    have twice : ∀ lam : Int, lam * lam - 2 * x = lam * lam - x - x := fun lam => by ring
    simp only [twice, intMod_cast _ p hp]
    rfl

theorem pointAdd_of_eq (x y a p : Nat) :
    pointAdd (.finite x y) (.finite x y) a p = pointDouble (.finite x y) a p :=
  if_pos ⟨rfl, rfl⟩

theorem pointAdd_of_x_eq {py qy : Nat} (hy : py ≠ qy) (x a p : Nat) :
    pointAdd (.finite x py) (.finite x qy) a p = .ok .inf :=
  (if_neg fun h => hy h.2).trans (if_pos rfl)

theorem pointAdd_of_x_ne {px qx : Nat} (hx : px ≠ qx) (py qy a : Nat) {p : Nat} (hp : p ≠ 0) :
    pointAdd (.finite px py) (.finite qx qy) a p =
      (invMod (qx - px) p).map fun inv : Nat => chord p ((qy - py) * inv % p) px py qx := by
  simp only [pointAdd, hx, false_and, if_false]
  cases invMod (qx - px) p with
  | error f => rfl
  | ok inv =>
    simp only [intMod_cast _ p hp]
    rfl

/-- The doubling unit computes `DBL` (R125). -/
theorem doubleIs_pointDouble (P : Point) (a : Nat) {p : Nat} (hp : p ≠ 0) :
    DoubleIs P a p (pointDouble P a p).toOption := by
  cases P with
  | inf => rfl
  | finite x y =>
    rw [pointDouble_finite x y a hp]
    exact toOption_map_invMod _ hp _

/-- The addition unit computes `ADD` (R122), case by case of its list. -/
theorem addIs_pointAdd (P Q : Point) (a : Nat) {p : Nat} (hp : p ≠ 0) :
    AddIs P Q a p (pointAdd P Q a p).toOption := by
  match P, Q with
  | .inf, _ => rfl
  | .finite _ _, .inf => rfl
  | .finite px py, .finite qx qy =>
    simp only [AddIs]
    by_cases hx : px = qx
    · subst hx
      by_cases hy : py = qy
      · subst hy
        rw [if_pos ⟨rfl, rfl⟩, pointAdd_of_eq]
        exact doubleIs_pointDouble _ a hp
      · rw [if_neg fun h => hy h.2, if_pos rfl, pointAdd_of_x_eq hy]
        rfl
    · rw [if_neg fun h => hx h.1, if_neg hx, pointAdd_of_x_ne hx py qy a hp]
      exact toOption_map_invMod _ hp _

/-- The conditional addition for one bit of the scalar (R128). -/
theorem addIs_of_bit (b : Bool) (S A : Point) (a : Nat) {p : Nat} (hp : p ≠ 0) :
    if b then AddIs S A a p (if b then pointAdd S A a p else .ok S).toOption
    else (if b then pointAdd S A a p else .ok S).toOption = some S := by
  cases b with
  | false => rfl
  | true => exact addIs_pointAdd S A a hp

/-- The scalar multiplier runs the loop of R128, by induction on the bits left. -/
theorem mulIs_mulLoop (k a : Nat) {p : Nat} (hp : p ≠ 0) (count i : Nat) (S A : Point) :
    MulIs k a p count i S A (mulLoop k a p count i S A).toOption := by
  induction count generalizing i S A with
  | zero => rfl
  | succ count ih =>
    refine ⟨_, addIs_of_bit (k.testBit i) S A a hp, ?_⟩
    rw [mulLoop]
    cases (if k.testBit i then pointAdd S A a p else .ok S) with
    | error f => rfl
    | ok S' =>
      refine ⟨_, doubleIs_pointDouble A a hp, ?_⟩
      cases pointDouble A a p with
      | error f => rfl
      | ok A' => exact ih (i + 1) S' A'

/-! ### The checks and the outcome of a point command -/

theorem inRange_iff {p : Nat} {P : Point} : inRange p P = true ↔ InRange p P := by
  cases P <;> simp [inRange, InRange]

theorem isPoint_of_lt {f : PReg} (h : f.toNat < 8) : isPoint f = true := decide_eq_true h

/-- A completed write of a point is the whole effect of a point command (R133). -/
theorem pointResult_setPoint (s : State) {d : PReg} (hd : d.toNat < 8) (P : Point) :
    PointResult s d P (s.setPoint d P).succeed := by
  have completed : Completed s (s.setPoint d P).succeed := by constructor <;> simp
  have coordinates : P = .inf → ∀ i : BReg, i.toNat = 2 * d.toNat ∨ i.toNat = 2 * d.toNat + 1 →
      (s.setPoint d P).big i = 0 := by
    rintro rfl i (hi | hi)
    · obtain rfl := eq_xReg hd hi
      simp [State.big_setPoint]
    · obtain rfl := eq_yReg hd hi
      simp [State.big_setPoint]
  have others (i : BReg) (hx : i.toNat ≠ 2 * d.toNat) (hy : i.toNat ≠ 2 * d.toNat + 1) :
      (s.setPoint d P).big i = s.big i :=
    s.big_setPoint_other d P i (fun h => hx (h ▸ xReg_toNat d hd)) (fun h => hy (h ▸ yReg_toNat d hd))
  have flags (k : Nat) (hk : k < 8) (hne : k ≠ d.toNat) :
      (s.setPoint d P).pinf.getLsbD k = s.pinf.getLsbD k := by
    rw [s.pinf_setPoint d P k hk, if_neg hne]
  refine ⟨completed, ⟨s.point_setPoint d P hd, coordinates, others, flags⟩, ?_⟩
  simp [SamePointers, SameInput, SameOutput]

section PointCommand

variable {s : State} {i : Instr} {pd : PReg} {p : Nat} {sources : List Point} {res : Except CoreFault Point}

/-- The checks of R121 fail: InvalidParameterError, whatever the computation would give. -/
theorem exec_point_unchecked (hw : i.wellFormed = true) (hrule : ruleOf i s = pointRule s pd p sources res)
    (h : p = 0 ∨ ∃ P ∈ sources, ¬InRange p P) : exec i s = .next (faulted s 2 0) := by
  refine exec_error i s .invalidParameter hw (hrule.trans ?_)
  obtain ⟨-, hres⟩ | ⟨hp, hall, -⟩ := pointRule_cases s pd p sources res
  · exact hres
  · obtain h0 | ⟨P, hmem, hP⟩ := h
    · exact absurd h0 hp
    · exact absurd (inRange_iff.1 (List.all_eq_true.1 hall P hmem)) hP

/-- The checks of R121 pass: the command does with its computation's result what R132 and R133 say. -/
theorem exec_point_checked (hw : i.wellFormed = true) (hrule : ruleOf i s = pointRule s pd p sources res)
    (hd : pd.toNat < 8) (hp : p ≠ 0) (hsources : ∀ P ∈ sources, InRange p P)
    (hres : ∀ f, res = .error f → f = .arithmetic) : PointOutcome s pd res.toOption (exec i s) := by
  obtain ⟨h0 | hall, -⟩ | ⟨-, -, ⟨f, rfl, hf⟩ | ⟨P, rfl, hP⟩⟩ := pointRule_cases s pd p sources res
  · exact absurd h0 hp
  · exact absurd (List.all_eq_true.2 fun P hP => inRange_iff.2 (hsources P hP)) (Bool.eq_false_iff.1 hall)
  · obtain rfl := hres f rfl
    exact exec_error i s .arithmetic hw (hrule.trans hf)
  · exact ⟨_, exec_ok i s _ hw (hrule.trans hP), pointResult_setPoint s hd P⟩

end PointCommand

/-! ### The four commands -/

/-- Settles O18: the checks, then the addition unit's result, which is that of R122 by `addIs_pointAdd`. -/
theorem paddMeaning : Obligations.PaddMeaning := by
  intro s pd pa pb bA bn hd ha hb
  have hw : (Instr.padd pd pa pb bA bn).wellFormed = true := by
    simp [Instr.wellFormed, isPoint_of_lt, hd, ha, hb]
  refine ⟨decode_encode (i := .padd pd pa pb bA bn) hw,
    fun h => exec_point_unchecked hw rfl (by simpa using h), fun hp hP hQ => ?_⟩
  refine ⟨_, addIs_pointAdd _ _ _ hp, exec_point_checked hw rfl hd hp (by simp [hP, hQ]) ?_⟩
  exact pointAdd_error _ _ _ _

/-- Settles O19: the checks, then the doubling unit's result, which is that of R125 by `doubleIs_pointDouble`. -/
theorem pdblMeaning : Obligations.PdblMeaning := by
  intro s pd pa bA bn hd ha
  have hw : (Instr.pdbl pd pa bA bn).wellFormed = true := by simp [Instr.wellFormed, isPoint_of_lt, hd, ha]
  refine ⟨decode_encode (i := .pdbl pd pa bA bn) hw,
    fun h => exec_point_unchecked hw rfl (by simpa using h), fun hp hP => ?_⟩
  exact ⟨_, doubleIs_pointDouble _ _ hp,
    exec_point_checked hw rfl hd hp (by simp [hP]) (pointDouble_error _ _ _)⟩

/-- Settles O21: the checks, then the scalar multiplier's result, which is that of R128 by `mulIs_mulLoop`. -/
theorem pmulMeaning : Obligations.PmulMeaning := by
  intro s pd pa bk bA bn hd ha
  have hw : (Instr.pmul pd pa bk bA bn).wellFormed = true := by simp [Instr.wellFormed, isPoint_of_lt, hd, ha]
  refine ⟨decode_encode (i := .pmul pd pa bk bA bn) hw,
    fun h => exec_point_unchecked hw rfl (by simpa using h), fun hp hP => ?_⟩
  rw [← bitLength_eq_size]
  exact ⟨_, mulIs_mulLoop _ _ hp _ _ _ _,
    exec_point_checked hw rfl hd hp (by simp [hP]) (mulLoop_error _ _ _ · _ _ _ _)⟩

/-- Settles O22: the checks, then the negation of R131, which raises no fault. -/
theorem pnegMeaning : Obligations.PnegMeaning := by
  intro s pd pa bn hd ha
  have hw : (Instr.pneg pd pa bn).wellFormed = true := by simp [Instr.wellFormed, isPoint_of_lt, hd, ha]
  have hrule : ruleOf (.pneg pd pa bn) s =
      pointRule s pd (s.big bn) [s.point pa] (.ok (pointNeg (s.point pa) (s.big bn))) := rfl
  have negated (hp : s.big bn ≠ 0) (hP : InRange (s.big bn) (s.point pa)) :
      ∃ t, exec (.pneg pd pa bn) s = .next t ∧ PointResult s pd (pointNeg (s.point pa) (s.big bn)) t :=
    exec_point_checked hw hrule hd hp (by simp [hP]) nofun
  refine ⟨decode_encode (i := .pneg pd pa bn) hw,
    fun h => exec_point_unchecked hw hrule (by simpa using h), fun hp hP => ?_, fun x y hP hx hy => ?_⟩
  · rw [hP] at negated
    exact negated hp trivial
  · rw [hP] at negated
    exact negated (by omega) ⟨hx, hy⟩

/-! ### Where the commands complete -/

/-- `DBL` has no inverse to work with for a finite point with `y = 0` (R126). -/
theorem eq_none_of_doubleIs_y_zero {x a p : Nat} {r : Option Point} (hp : 1 < p) (h : DoubleIs (.finite x 0) a p r) :
    r = none := by
  have hgcd : Int.gcd (2 * (0 : Nat)) p ≠ 1 := by simpa using hp.ne'
  rwa [DoubleIs, if_pos hgcd] at h

theorem doubleIs_of_addIs_self {x y a p : Nat} {r : Option Point} (h : AddIs (.finite x y) (.finite x y) a p r) :
    DoubleIs (.finite x y) a p r := by
  rwa [AddIs, if_pos ⟨rfl, rfl⟩] at h

/-- Settles O20: both commands end as `DBL` does, which faults for `y = 0`. -/
theorem doubleOfOrderTwoFaults : Obligations.DoubleOfOrderTwoFaults := by
  intro s pd pa bA bn x hd ha hP hx hp
  have hrange : InRange (s.big bn) (s.point pa) := hP ▸ ⟨hx, by omega⟩
  obtain ⟨-, -, hdbl⟩ := pdblMeaning s pd pa bA bn hd ha
  obtain ⟨-, -, hadd⟩ := paddMeaning s pd pa pa bA bn hd ha ha
  obtain ⟨r, hr, hout⟩ := hdbl (by omega) hrange
  obtain ⟨r', hr', hout'⟩ := hadd (by omega) hrange hrange
  rw [hP] at hr hr'
  obtain rfl := eq_none_of_doubleIs_y_zero hp hr
  obtain rfl := eq_none_of_doubleIs_y_zero hp (doubleIs_of_addIs_self hr')
  exact ⟨hout, hout'⟩

theorem inRange_chord {p : Nat} (hp : p ≠ 0) (lam x1 y1 x2 : Int) : InRange p (chord p lam x1 y1 x2) :=
  ⟨intMod_lt _ p hp, intMod_lt _ p hp⟩

/-- Over a prime the inverse fails for 0 alone (R132). -/
theorem gcd_eq_one_of_not_dvd {p : Nat} (hp : p.Prime) {v : Int} (h : ¬(p : Int) ∣ v) : Int.gcd v p = 1 :=
  Int.isCoprime_iff_gcd_eq_one.1 ((Nat.prime_iff_prime_int.1 hp).coprime_iff_not_dvd.2 h).symm

theorem doubleIs_completes {P : Point} {a p : Nat} {r : Option Point} (hp : p.Prime) (hp2 : p ≠ 2)
    (hP : InRange p P) (hy : ∀ x, P ≠ .finite x 0) (h : DoubleIs P a p r) : ∃ R, r = some R ∧ InRange p R := by
  cases P with
  | inf => exact ⟨_, h, trivial⟩
  | finite x y =>
    obtain ⟨-, hylt⟩ := hP
    have hy0 : y ≠ 0 := fun h0 => hy x (h0 ▸ rfl)
    have hndvd : ¬(p : Int) ∣ 2 * y := by
      intro hdvd
      obtain h2 | hy' := hp.dvd_mul.1 (show p ∣ 2 * y by exact_mod_cast hdvd)
      · exact hp2 ((Nat.prime_dvd_prime_iff_eq hp Nat.prime_two).1 h2)
      · exact absurd (Nat.le_of_dvd (Nat.pos_of_ne_zero hy0) hy') (by omega)
    rw [DoubleIs, if_neg (not_not.2 (gcd_eq_one_of_not_dvd hp hndvd))] at h
    obtain ⟨inv, -, hr⟩ := h
    exact ⟨_, hr, inRange_chord hp.ne_zero _ _ _ _⟩

theorem addIs_completes {P Q : Point} {a p : Nat} {r : Option Point} (hp : p.Prime) (hp2 : p ≠ 2)
    (hP : InRange p P) (hQ : InRange p Q) (hy : ∀ x, ¬(P = .finite x 0 ∧ Q = .finite x 0)) (h : AddIs P Q a p r) :
    ∃ R, r = some R ∧ InRange p R := by
  match P, Q with
  | .inf, Q => exact ⟨Q, h, hQ⟩
  | .finite _ _, .inf => exact ⟨_, h, hP⟩
  | .finite px py, .finite qx qy =>
    rw [AddIs] at h
    split_ifs at h with heq hx hgcd
    · obtain ⟨rfl, rfl⟩ := heq
      exact doubleIs_completes hp hp2 hP (fun x hx => hy x ⟨hx, hx⟩) h
    · exact ⟨_, h, trivial⟩
    · obtain ⟨hpx, -⟩ := hP
      obtain ⟨hqx, -⟩ := hQ
      refine absurd (gcd_eq_one_of_not_dvd hp fun hdvd => ?_) hgcd
      exact absurd (Int.eq_zero_of_abs_lt_dvd hdvd (by rw [abs_lt]; omega)) (by omega)
    · obtain ⟨inv, -, hr⟩ := h
      exact ⟨_, hr, inRange_chord hp.ne_zero _ _ _ _⟩

/-- No bit: the sum is still the point at infinity (R128). -/
theorem eq_inf_of_mulIs_zero {a p : Nat} {P : Point} {r : Option Point} (h : MulIs 0 a p (Nat.size 0) 0 .inf P r) :
    r = some .inf := by
  rwa [Nat.size_zero] at h

/-- One bit: the point is added to infinity, and its double is computed although nothing uses it (R129). -/
theorem eq_point_of_mulIs_one {a p : Nat} {P : Point} {r : Option Point}
    (hD : ∀ r', DoubleIs P a p r' → ∃ D, r' = some D) (h : MulIs 1 a p (Nat.size 1) 0 .inf P r) : r = some P := by
  rw [Nat.size_one] at h
  obtain ⟨_, hadd, h⟩ := h
  obtain rfl : _ = some P := hadd
  obtain ⟨_, hdouble, h⟩ := h
  obtain ⟨D, rfl⟩ := hD _ hdouble
  exact h

/-- Settles O23: the relations of R122, R125 and R128 end in a point under the side conditions. -/
theorem primeFieldCompletes : Obligations.PrimeFieldCompletes := by
  intro s pd pa pb bk bA bn hd ha hb hp hp2 hP
  obtain ⟨-, -, hadd⟩ := paddMeaning s pd pa pb bA bn hd ha hb
  obtain ⟨-, -, hdbl⟩ := pdblMeaning s pd pa bA bn hd ha
  obtain ⟨-, -, hmul⟩ := pmulMeaning s pd pa bk bA bn hd ha
  refine ⟨fun hQ hy => ?_, fun hy => ?_, fun hk => ?_, fun hk hy => ?_⟩
  · obtain ⟨r, hr, hout⟩ := hadd hp.ne_zero hP hQ
    obtain ⟨R, rfl, hR⟩ := addIs_completes hp hp2 hP hQ hy hr
    obtain ⟨t, ht, hres⟩ := hout
    exact ⟨t, R, ht, hres, hR⟩
  · obtain ⟨r, hr, hout⟩ := hdbl hp.ne_zero hP
    obtain ⟨R, rfl, hR⟩ := doubleIs_completes hp hp2 hP hy hr
    obtain ⟨t, ht, hres⟩ := hout
    exact ⟨t, R, ht, hres, hR⟩
  · obtain ⟨r, hr, hout⟩ := hmul hp.ne_zero hP
    rw [hk] at hr
    obtain rfl := eq_inf_of_mulIs_zero hr
    exact hout
  · obtain ⟨r, hr, hout⟩ := hmul hp.ne_zero hP
    rw [hk] at hr
    obtain rfl := eq_point_of_mulIs_one
      (fun r' hr' => (doubleIs_completes hp hp2 hP hy hr').imp fun _ => And.left) hr
    exact hout

/-! ### A point and its negation -/

/-- A write of one point register leaves the others (R23, R133). -/
theorem point_eq_of_wrotePoint_other {s t : State} {d p : PReg} {P : Point} (h : WrotePoint s d P t) (hp : p.toNat < 8)
    (hne : p ≠ d) : t.point p = s.point p := by
  obtain ⟨-, -, hbig, hflag⟩ := h
  have hnum : p.toNat ≠ d.toNat := fun h => hne (BitVec.eq_of_toNat_eq h)
  have hx : t.big (xReg p) = s.big (xReg p) := by
    apply hbig <;> rw [xReg_toNat p hp] <;> omega
  have hy : t.big (yReg p) = s.big (yReg p) := by
    apply hbig <;> rw [yReg_toNat p hp] <;> omega
  have hbit : t.pinfBit p = s.pinfBit p := hflag p.toNat hp hnum
  rw [State.point, hbit, hx, hy, State.point]

theorem eq_inf_of_addIs_x_eq {x py qy a p : Nat} {r : Option Point} (hy : py ≠ qy)
    (h : AddIs (.finite x py) (.finite x qy) a p r) : r = some .inf := by
  rwa [AddIs, if_neg fun h => hy h.2, if_pos rfl] at h

/-- Settles O24: after the PNEG the two points share `x` and differ in `y`, the vertical-line case of R122. -/
theorem pointPlusNegation : Obligations.PointPlusNegation := by
  intro s pd pa pq bA bn x y hd ha hq hne hbx hby hP hx hy hy0 h2y
  obtain ⟨-, -, -, hneg⟩ := pnegMeaning s pq pa bn hq ha
  obtain ⟨t, ht, -, hwrote, -⟩ := hneg x y hP hx hy
  have hPt : t.point pa = .finite x y := (point_eq_of_wrotePoint_other hwrote ha hne.symm).trans hP
  obtain ⟨hQt, -, hbig, -⟩ := hwrote
  rw [Nat.mod_eq_of_lt (by omega)] at hQt
  have hbn : t.big bn = s.big bn := hbig bn hbx hby
  obtain ⟨-, -, hadd⟩ := paddMeaning t pd pa pq bA bn hd ha hq
  rw [hPt, hQt, hbn] at hadd
  obtain ⟨r, hr, hout⟩ := hadd (by omega) ⟨hx, hy⟩ ⟨hx, by omega⟩
  obtain rfl := eq_inf_of_addIs_x_eq (by omega) hr
  obtain ⟨u, hu, hdone, ⟨hpoint, -⟩, -⟩ := hout
  exact ⟨t, u, ht, hu, hdone.done, hpoint⟩

end Sys2Proof.Proofs
end

section
/-! PROOFS. The block-integer codec (42_codec.md): which byte strings are shortest for their value (R145), the bytes
of the stream, the effect of a load and of a store (R140), the pointer check that comes first (R141), and the six
commands, the loads by the parser of R148. -/

namespace Sys2Proof.Proofs

open Sys2Proof Sys2Proof.Machine Sys2Proof.Claims

/-! ### Byte strings -/

theorem beSum_lt (l : List Byte) : beSum l < 256 ^ l.length := by
  rw [beSum_eq_beValue]
  exact beValue_lt l

/-- A string that begins with a byte other than 0 is shortest for its value: a shorter one has a smaller value. -/
theorem isMag_of_head_ne_zero {b : Byte} (l : List Byte) (hb : b ≠ 0) : IsMag (beSum (b :: l)) (b :: l) := by
  refine ⟨rfl, List.cons_ne_nil b l, fun l' hval _ => ?_⟩
  by_contra hlen
  have hshort : l'.length ≤ l.length := by simpa using hlen
  have hpos : 0 < b.toNat := Nat.pos_of_ne_zero fun h => hb (BitVec.eq_of_toNat_eq h)
  have : beSum l' < beSum (b :: l) := calc
    beSum l' < 256 ^ l'.length := beSum_lt l'
    _ ≤ 256 ^ l.length := Nat.pow_le_pow_right (by decide) hshort
    _ ≤ b.toNat * 256 ^ l.length := Nat.le_mul_of_pos_left _ hpos
    _ ≤ beSum (b :: l) := by rw [beSum_cons]; omega
  omega

/-- A leading 0 can be dropped without a change of the value. -/
theorem beSum_zero_cons (l : List Byte) : beSum (0 :: l) = beSum l := by
  simp [beSum_cons]

/-- Settles O34: a string comes back when it is the shortest of its value, and it is not when a leading 0 can be
dropped. -/
theorem roundTripOfBytes : Obligations.RoundTripOfBytes := by
  intro l
  rw [← beSum_eq_beValue, eq_comm, ← isMag_iff]
  constructor
  · rintro ⟨-, hne, hmin⟩
    obtain ⟨b, l', rfl⟩ := List.exists_cons_of_ne_nil hne
    by_cases hb : b = 0
    · subst hb
      by_cases hl' : l' = []
      · exact .inr (by rw [hl'])
      · have := hmin l' (beSum_zero_cons l').symm hl'
        simp at this
    · exact .inl ⟨b, l', rfl, hb⟩
  · rintro (⟨b, l', rfl, hb⟩ | rfl)
    · exact isMag_of_head_ne_zero l' hb
    · exact ⟨rfl, List.cons_ne_nil 0 [], fun l' _ hl' => List.length_pos_iff.2 hl'⟩

/-- Its own length word says that a unit's magnitude fits, so a unit is the one of its value (R146). -/
theorem eq_unitBytes_of_isUnit {v : Nat} {l : List Byte} (h : IsUnit v l) : l = unitBytes v := by
  have ⟨size, m, hm, hlen, hsize, _⟩ := h
  obtain rfl := isMag_iff.1 hm
  refine (isUnit_iff ?_).1 h
  rw [← hsize, ← hlen]
  exact beSum_lt size

/-- A serialised point is the one of its value (R153). -/
theorem eq_pointBytes_of_isPointBytes {P : Point} {l : List Byte} (h : IsPointBytes P l) : l = pointBytes P := by
  cases P with
  | inf => exact h
  | finite x y =>
    obtain ⟨ux, uy, hx, hy, rfl⟩ := h
    rw [eq_unitBytes_of_isUnit hx, eq_unitBytes_of_isUnit hy, pointBytes]

/-! ### The bytes of the stream -/

theorem getElem_streamBytes (s : State) (pos n j : Nat) (hj : j < (s.streamBytes pos n).length) :
    (s.streamBytes pos n)[j] = s.ibuf.read (pos + j) :=
  s.ibuf.getElem_readBytes n pos j hj

/-- The statements and the model read the same bytes of IBUF. -/
theorem bytesAt_eq_streamBytes (s : State) (pos n : Nat) : bytesAt s.ibuf pos n = s.streamBytes pos n := by
  refine List.ext_getElem (by simp [bytesAt]) fun j _ _ => ?_
  simp only [bytesAt, List.getElem_ofFn, getElem_streamBytes]

theorem streamBytes_add (s : State) (pos n k : Nat) :
    s.streamBytes pos (n + k) = s.streamBytes pos n ++ s.streamBytes (pos + n) k := by
  induction n generalizing pos with
  | zero => simp [State.streamBytes, Memory.readBytes]
  | succ n ih =>
    have := ih (pos + 1)
    simp only [State.streamBytes] at this ⊢
    rw [Nat.add_right_comm, Memory.readBytes, this, Memory.readBytes, List.cons_append,
      Nat.add_assoc pos, Nat.add_comm 1]

/-- A string stands in the stream exactly when its two parts do, one after the other. -/
theorem streamBytes_eq_append_iff {s : State} {pos : Nat} {l l' : List Byte} :
    s.streamBytes pos (l ++ l').length = l ++ l' ↔
      s.streamBytes pos l.length = l ∧ s.streamBytes (pos + l.length) l'.length = l' := by
  rw [List.length_append, streamBytes_add]
  refine ⟨fun h => List.append_inj h (s.length_streamBytes pos l.length), ?_⟩
  rintro ⟨h, h'⟩
  rw [h, h']

theorem streamBytes_eq_cons_iff {s : State} {pos : Nat} {b : Byte} {l : List Byte} :
    s.streamBytes pos (b :: l).length = b :: l ↔ s.ibuf.read pos = b ∧ s.streamBytes (pos + 1) l.length = l := by
  rw [← List.cons_eq_cons]
  rfl

/-! ### The effect of a load and of a store -/

/-- A load consumes bytes of the stream, so its pointer stays in 32 bits (R140). -/
theorem toNat_iptr_add {s : State} {c : Nat} (hc : s.iptr.toNat + c ≤ s.ilen.toNat) :
    (s.iptr + BitVec.ofNat 32 c).toNat = s.iptr.toNat + c ∧ (BitVec.ofNat 32 c).toNat = c := by
  have := s.ilen.isLt
  simp only [BitVec.toNat_add, BitVec.toNat_ofNat]
  omega

/-- A completed load of a big register has no other effect (R140). -/
theorem loadResult_setBig (s : State) (d : BReg) (v : Nat) {c : Nat} (hc : s.iptr.toNat + c ≤ s.ilen.toNat) :
    LoadResult s d v c ((s.setBig d v).consume c).succeed := by
  obtain ⟨-, wrote, -, input, output⟩ := bigResult_setBig s d v
  obtain ⟨hiptr, hcnt⟩ := toNat_iptr_add hc
  have completed : Completed s ((s.setBig d v).consume c).succeed := by constructor <;> rfl
  exact ⟨completed, wrote, ⟨hiptr, hcnt, rfl⟩, input, output⟩

/-- A completed load of a point register has no other effect (R140). -/
theorem pointLoadResult_setPoint (s : State) {d : PReg} (hd : d.toNat < 8) (P : Point) {c : Nat}
    (hc : s.iptr.toNat + c ≤ s.ilen.toNat) : PointLoadResult s d P c ((s.setPoint d P).consume c).succeed := by
  obtain ⟨-, wrote, -, input, output⟩ := pointResult_setPoint s hd P
  obtain ⟨hiptr, hcnt⟩ := toNat_iptr_add hc
  have completed : Completed s ((s.setPoint d P).consume c).succeed := by constructor <;> simp
  exact ⟨completed, wrote, by simp [Consumed, hiptr, hcnt], input, output⟩

/-- A completed store has no other effect (R140); a legal OBUF ends far below `2^32`, so OPTR does not wrap. -/
theorem storeResult_emit {s : State} {l : List Byte} (hc : s.cfg.Legal) (hwf : s.obuf.Wf)
    (hfit : s.optr.toNat + l.length ≤ s.cfg.obytes) : StoreResult s l (s.emit l).succeed := by
  obtain ⟨-, -, -, -, hmax⟩ := hc
  have completed : Completed s (s.emit l).succeed := by constructor <;> rfl
  have written : ∀ (j : Nat) (hj : j < l.length), (s.emit l).obuf.read (s.optr.toNat + j) = l[j] :=
    fun j hj => Memory.read_writeBytes_same l s.obuf s.optr.toNat j hj hwf
  have kept : ∀ a, a < s.optr.toNat ∨ s.optr.toNat + l.length ≤ a → (s.emit l).obuf.read a = s.obuf.read a :=
    Memory.read_writeBytes_other l s.obuf s.optr.toNat
  have hoptr : (s.emit l).optr.toNat = s.optr.toNat + l.length := by
    simp only [State.emit_optr, BitVec.toNat_add, BitVec.toNat_ofNat]
    omega
  have hcnt : (s.emit l).cnt.toNat = l.length := by
    simp only [State.emit_cnt, BitVec.toNat_ofNat]
    omega
  exact ⟨completed, fun _ => rfl, rfl, ⟨written, kept, hoptr, hcnt, rfl⟩, fun _ => rfl⟩

/-! ### The pointer check -/

/-- Fault entry is the five assignments of R206. -/
theorem faultEntry_eq_faulted (s : State) (f : CoreFault) : s.faultEntry f = faulted s f.code f.errPos := rfl

/-- The model's test of R141 fails exactly when the condition does not hold. -/
theorem pointerCheck_iff {s : State} : (!s.pointersOk) = true ↔ ¬PointersOk s := by
  rw [Bool.not_eq_true', ← Bool.not_eq_true, s.pointersOk_iff]
  rfl

theorem pointerCheck_passes {s : State} (hp : PointersOk s) : ¬(!s.pointersOk) = true :=
  mt pointerCheck_iff.1 (not_not.2 hp)

/-- Settles O33: the check is the first test of each of the six rules. -/
theorem pointerCheckFirst : Obligations.PointerCheckFirst := by
  intro s i hp hw hi
  have fails := pointerCheck_iff.2 hp
  cases i with
  | ldblk | stint | wrunit | rdunit | wrpt | rdpt => exact exec_error _ s .invalidParameter hw (if_pos fails)
  | montmul | modexp | modinv | gcd | padd | pdbl | pmul | pneg => simp [Instr.mnemonic] at hi

/-! ### The stores -/

/-- What the three stores share (R144, R147, R151): the pointer check, the room, the bytes at OPTR. -/
theorem storeOutcome_of_store {s : State} {i : Instr} {l : List Byte} (hw : i.wellFormed = true)
    (hrule : ruleOf i s = s.store l) (hc : s.cfg.Legal) (hwf : s.obuf.Wf) : StoreOutcome s l (exec i s) := by
  refine ⟨fun hp => ?_, fun hp hroom => ?_, fun hp hroom => ?_⟩
  · exact exec_error i s .invalidParameter hw (hrule.trans (if_pos (pointerCheck_iff.2 hp)))
  · exact exec_error i s .io hw (hrule.trans ((if_neg (pointerCheck_passes hp)).trans (if_pos hroom)))
  · have hstore : s.store l = .ok (s.emit l) := (if_neg (pointerCheck_passes hp)).trans (if_neg (Nat.not_lt.2 hroom))
    obtain ⟨-, -, hoptr⟩ := hp
    exact ⟨_, exec_ok i s _ hw (hrule.trans hstore), storeResult_emit hc hwf (by omega)⟩

/-- Settles O28: the one minimal magnitude is stored. -/
theorem stintMeaning : Obligations.StintMeaning := by
  intro s bs l hc hwf hl
  obtain rfl := isMag_iff.1 hl
  exact ⟨decode_encode (i := .stint bs) rfl, storeOutcome_of_store rfl rfl hc hwf⟩

/-- Settles O29: the one unit is stored. -/
theorem wrunitMeaning : Obligations.WrunitMeaning := by
  intro s bs l hc hwf hl
  obtain rfl := eq_unitBytes_of_isUnit hl
  exact ⟨decode_encode (i := .wrunit bs) rfl, storeOutcome_of_store rfl rfl hc hwf⟩

/-- Settles O31: the one serialised point is stored. -/
theorem wrptMeaning : Obligations.WrptMeaning := by
  intro s ps l hps hc hwf hl
  obtain rfl := eq_pointBytes_of_isPointBytes hl
  have hw : (Instr.wrpt ps).wellFormed = true := isPoint_of_lt hps
  exact ⟨decode_encode hw, storeOutcome_of_store hw rfl hc hwf⟩

/-! ### LDBLK -/

/-- A modulus below 256 has no whole byte below its top bit (R142, R143). -/
theorem blockLength_eq_zero_iff {m : Nat} : blockLength m = 0 ↔ m < 256 := by
  have hsize : bitLength m ≤ 8 ↔ m < 256 := by rw [bitLength_eq_size, Nat.size_le]
  rw [← hsize, blockLength]
  omega

theorem exec_ldblk_small {s : State} {bn : BReg} (bd : BReg) (hp : PointersOk s) (hm : s.big bn < 256) :
    exec (.ldblk bd bn) s = .next (faulted s 2 0) := by
  refine exec_error _ s .invalidParameter rfl ((if_neg (pointerCheck_passes hp)).trans ?_)
  by_cases h0 : s.big bn = 0
  · exact if_pos h0
  · exact (if_neg h0).trans (if_pos (blockLength_eq_zero_iff.2 hm))

theorem exec_ldblk_block {s : State} {bn : BReg} (bd : BReg) (hp : PointersOk s) (hm : 256 ≤ s.big bn) :
    let c := min (blockLength (s.big bn)) s.avail
    ∃ t, exec (.ldblk bd bn) s = .next t ∧ LoadResult s bd (beValue (s.streamBytes s.iptr.toNat c)) c t := by
  intro c
  have hblock : ¬blockLength (s.big bn) = 0 := mt blockLength_eq_zero_iff.1 (by omega)
  have hc : c ≤ s.ilen.toNat - s.iptr.toNat := Nat.min_le_right ..
  refine ⟨_, exec_ok _ s _ rfl ?_, loadResult_setBig s bd _ ?_⟩
  · exact (if_neg (pointerCheck_passes hp)).trans ((if_neg (by omega)).trans (if_neg hblock))
  · obtain ⟨hiptr, -⟩ := hp
    omega

/-- Settles O25: the checks, then the block as the model reads it. -/
theorem ldblkMeaning : Obligations.LdblkMeaning := by
  refine fun s bd bn => ⟨decode_encode (i := .ldblk bd bn) rfl, fun h => ?_, fun hp hm => ?_⟩
  · by_cases hp : PointersOk s
    · exact exec_ldblk_small bd hp (h.resolve_left (not_not.2 hp))
    · exact pointerCheckFirst s (.ldblk bd bn) hp rfl (by simp [Instr.mnemonic])
  · simp only [beSum_eq_beValue, bytesAt_eq_streamBytes, ← bitLength_eq_size]
    exact exec_ldblk_block bd hp hm

/-- Settles O26: the block has at most as many bytes as R143 allows below its modulus. -/
theorem blockBelowModulus : Obligations.BlockBelowModulus := by
  intro s bd bn hp hm
  obtain ⟨t, ht, completed, ⟨hval, -⟩, -⟩ := exec_ldblk_block bd hp hm
  refine ⟨t, ht, completed.done, ?_⟩
  rw [hval]
  exact blockValue_lt _ _ (by omega) (by simp)

/-! ### The parser -/

/-- A position inside the stream fits ERRPOS (R206). -/
theorem toNat_errPos_malformed {s : State} {q : Nat} (hq : q ≤ s.ilen.toNat) :
    (CoreFault.malformedCiphertext q).errPos.toNat = q :=
  Nat.mod_eq_of_lt (lt_of_le_of_lt hq s.ilen.isLt)

/-- The parser of the statements is the model's, its faults given by code and position (R148, R201). -/
theorem parse_eq_mapError_parseUnit {s : State} {pos : Nat} (hpos : pos ≤ s.ilen.toNat) :
    parse s pos = (s.parseUnit pos).mapError fun f => (f.code, f.errPos.toNat) := by
  have hword := s.lengthWord_lt pos
  simp only [parse, State.parseUnit, beSum_eq_beValue, bytesAt_eq_streamBytes]
  generalize beValue (s.streamBytes pos 4) = size at hword ⊢
  by_cases short : s.ilen.toNat < pos + 4
  · rw [if_pos short, if_pos (show s.ilen.toNat - pos < 4 by omega), Except.mapError, toNat_errPos_malformed hpos]
    rfl
  rw [if_neg short, if_neg (show ¬s.ilen.toNat - pos < 4 by omega)]
  by_cases negative : 2 ^ 31 ≤ size
  · rw [if_pos negative, if_pos (sext32_neg size (by omega) hword), Except.mapError, toNat_errPos_malformed hpos]
    rfl
  rw [if_neg negative, sext32_of_lt size (by omega), if_neg (show ¬(size : Int) < 0 by omega), Int.toNat_natCast]
  by_cases long : s.ilen.toNat < pos + 4 + size
  · rw [if_pos long, if_pos (show (size : Int) > (s.ilen.toNat - pos - 4 : Nat) by omega), Except.mapError,
      toNat_errPos_malformed (s := s) (by omega)]
    rfl
  rw [if_neg long, if_neg (show ¬(size : Int) > (s.ilen.toNat - pos - 4 : Nat) by omega)]
  by_cases large : 2 ^ s.cfg.width ≤ beValue (s.streamBytes (pos + 4) size)
  · rw [if_pos large, if_pos (show beValue _ ≥ _ from large)]
    rfl
  · rw [if_neg large, if_neg (show ¬beValue _ ≥ _ from large)]
    rfl

/-- A parsed unit ends inside the stream. -/
theorem parseUnit_next {s : State} {pos v next : Nat} (h : s.parseUnit pos = .ok (v, next)) :
    pos ≤ next ∧ next ≤ s.ilen.toNat := by
  obtain ⟨len, h4, -, -, hlen, -, -, rfl⟩ := s.parseUnit_ok pos v next h
  omega

theorem parseUnit_of_parse_ok {s : State} {pos : Nat} {r : Nat × Nat} (hpos : pos ≤ s.ilen.toNat)
    (h : parse s pos = .ok r) : s.parseUnit pos = .ok r := by
  rw [parse_eq_mapError_parseUnit hpos] at h
  cases hu : s.parseUnit pos with
  | error f => rw [hu] at h; cases h
  | ok r' => rw [hu] at h; cases h; rfl

/-- Fault entry reports the code and the position that the parser answers. -/
theorem parseUnit_of_parse_error {s : State} {pos q : Nat} {code : BitVec 3} (hpos : pos ≤ s.ilen.toNat)
    (h : parse s pos = .error (code, q)) :
    ∃ f, s.parseUnit pos = .error f ∧ s.faultEntry f = faulted s code (BitVec.ofNat 32 q) := by
  rw [parse_eq_mapError_parseUnit hpos] at h
  cases hu : s.parseUnit pos with
  | error f =>
    rw [hu] at h
    cases h
    exact ⟨f, rfl, by rw [BitVec.ofNat_toNat, BitVec.setWidth_eq, faultEntry_eq_faulted]⟩
  | ok r => rw [hu] at h; cases h

/-! ### RDUNIT -/

/-- With sane pointers RDUNIT ends as the parser at IPTR does (R150). -/
theorem ruleOf_rdunit {s : State} (bd : BReg) (hp : PointersOk s) :
    ruleOf (.rdunit bd) s =
      (s.parseUnit s.iptr.toNat).map fun r => (s.setBig bd r.1).consume (r.2 - s.iptr.toNat) := by
  rw [ruleOf, rdunitRule, if_neg (pointerCheck_passes hp)]
  cases s.parseUnit s.iptr.toNat <;> rfl

theorem exec_rdunit_parsed {s : State} {v next : Nat} (bd : BReg) (hp : PointersOk s)
    (h : s.parseUnit s.iptr.toNat = .ok (v, next)) :
    ∃ t, exec (.rdunit bd) s = .next t ∧ LoadResult s bd v (next - s.iptr.toNat) t := by
  obtain ⟨hlow, hhigh⟩ := parseUnit_next h
  refine ⟨_, exec_ok _ s _ rfl ?_, loadResult_setBig s bd v (by omega)⟩
  rw [ruleOf_rdunit bd hp, h]
  rfl

/-- Settles O30: the check, then the parser's outcome, which is that of R148 by `parse_eq_mapError_parseUnit`. -/
theorem rdunitMeaning : Obligations.RdunitMeaning := by
  refine fun s bd => ⟨decode_encode (i := .rdunit bd) rfl,
    fun hp => pointerCheckFirst s (.rdunit bd) hp rfl (by simp [Instr.mnemonic]), fun hp code pos h => ?_,
    fun hp v q h => exec_rdunit_parsed bd hp (parseUnit_of_parse_ok hp.1 h)⟩
  obtain ⟨f, hf, hentry⟩ := parseUnit_of_parse_error hp.1 h
  rw [← hentry]
  exact exec_error _ s f rfl (by rw [ruleOf_rdunit bd hp, hf]; rfl)

/-! ### RDPT -/

/-- A point number below 8 names a point register (R74). -/
theorem wellFormed_rdpt {pd : PReg} (hd : pd.toNat < 8) : (Instr.rdpt pd).wellFormed = true := isPoint_of_lt hd

/-- No flag byte, or one that is neither 00 nor 01: the stream is malformed at IPTR. -/
theorem exec_rdpt_noFlag {s : State} {pd : PReg} (hd : pd.toNat < 8) (hp : PointersOk s)
    (h : s.ilen.toNat = s.iptr.toNat ∨ (s.ibuf.read s.iptr.toNat ≠ 0x00 ∧ s.ibuf.read s.iptr.toNat ≠ 0x01)) :
    exec (.rdpt pd) s = .next (faulted s 3 s.iptr) := by
  have hrule : ruleOf (.rdpt pd) s = .error (.malformedCiphertext s.iptr.toNat) := by
    refine (if_neg (pointerCheck_passes hp)).trans ?_
    by_cases havail : s.avail < 1
    · exact if_pos havail
    · obtain hend | ⟨h0, h1⟩ := h
      · exact absurd (by rw [State.avail, hend]; omega) havail
      · exact (if_neg havail).trans ((if_neg h1).trans (if_neg h0))
  have hpos : (CoreFault.malformedCiphertext s.iptr.toNat).errPos = s.iptr := BitVec.ofNat_toNat ..
  rw [exec_error _ s _ (wellFormed_rdpt hd) hrule, faultEntry_eq_faulted, hpos]
  rfl

/-- The flag byte 01 is the whole point at infinity. -/
theorem exec_rdpt_infinite {s : State} {pd : PReg} (hd : pd.toNat < 8) (hp : PointersOk s)
    (hlt : s.iptr.toNat < s.ilen.toNat) (hflag : s.ibuf.read s.iptr.toNat = 0x01) :
    ∃ t, exec (.rdpt pd) s = .next t ∧ PointLoadResult s pd .inf 1 t := by
  have havail : ¬s.avail < 1 := by rw [State.avail]; omega
  refine ⟨_, exec_ok _ s _ (wellFormed_rdpt hd) ?_, pointLoadResult_setPoint s hd .inf hlt⟩
  exact (if_neg (pointerCheck_passes hp)).trans ((if_neg havail).trans (if_pos hflag))

/-- After the flag byte 00 RDPT ends as the parser does on the two units, the second where the first ends. -/
theorem ruleOf_rdpt_finite {s : State} (pd : PReg) (hp : PointersOk s) (hlt : s.iptr.toNat < s.ilen.toNat)
    (hflag : s.ibuf.read s.iptr.toNat = 0x00) :
    ruleOf (.rdpt pd) s =
      (s.parseUnit (s.iptr.toNat + 1)).bind fun x => (s.parseUnit x.2).map fun y =>
        (s.setPoint pd (.finite x.1 y.1)).consume (y.2 - s.iptr.toNat) := by
  have havail : ¬s.avail < 1 := by rw [State.avail]; omega
  have hne : s.ibuf.read s.iptr.toNat ≠ 0x01 := by rw [hflag]; decide
  rw [ruleOf, rdptRule, if_neg (pointerCheck_passes hp), if_neg havail]
  dsimp only
  rw [if_neg hne, if_pos hflag]
  cases s.parseUnit (s.iptr.toNat + 1) with
  | error f => rfl
  | ok x =>
    simp only [Except.bind]
    cases s.parseUnit x.2 <;> rfl

theorem exec_rdpt_parsed {s : State} {pd : PReg} {x y n1 n2 : Nat} (hd : pd.toNat < 8) (hp : PointersOk s)
    (hlt : s.iptr.toNat < s.ilen.toNat) (hflag : s.ibuf.read s.iptr.toNat = 0x00)
    (hx : s.parseUnit (s.iptr.toNat + 1) = .ok (x, n1)) (hy : s.parseUnit n1 = .ok (y, n2)) :
    ∃ t, exec (.rdpt pd) s = .next t ∧ PointLoadResult s pd (.finite x y) (n2 - s.iptr.toNat) t := by
  have hn1 := parseUnit_next hx
  have hn2 := parseUnit_next hy
  refine ⟨_, exec_ok _ s _ (wellFormed_rdpt hd) ?_, pointLoadResult_setPoint s hd (.finite x y) (by omega)⟩
  rw [ruleOf_rdpt_finite pd hp hlt hflag, hx]
  simp only [Except.bind, hy]
  rfl

/-- Settles O32: the check, the flag byte, then the parser's outcome on `x` and, when that is a value, on `y`. -/
theorem rdptMeaning : Obligations.RdptMeaning := by
  intro s pd hd
  have hw := wellFormed_rdpt hd
  refine ⟨decode_encode hw, fun hp => pointerCheckFirst s _ hp hw (by simp [Instr.mnemonic]), exec_rdpt_noFlag hd,
    exec_rdpt_infinite hd, fun hp hlt hflag => ?_⟩
  have hrule := ruleOf_rdpt_finite pd hp hlt hflag
  rcases hx : parse s (s.iptr.toNat + 1) with ⟨code, pos⟩ | ⟨x, n1⟩
  · obtain ⟨f, hf, hentry⟩ := parseUnit_of_parse_error hlt hx
    dsimp only
    rw [← hentry]
    exact exec_error _ s f hw (by rw [hrule, hf]; rfl)
  have hx' := parseUnit_of_parse_ok hlt hx
  have hn1 := (parseUnit_next hx').2
  rcases hy : parse s n1 with ⟨code, pos⟩ | ⟨y, n2⟩
  · obtain ⟨f, hf, hentry⟩ := parseUnit_of_parse_error hn1 hy
    simp only [hy]
    rw [← hentry]
    exact exec_error _ s f hw (by rw [hrule, hx']; simp only [Except.bind, hf]; rfl)
  · simp only [hy]
    exact exec_rdpt_parsed hd hp hlt hflag hx' (parseUnit_of_parse_ok hn1 hy)

end Sys2Proof.Proofs
end

section
/-! PROOFS. What the codec's rules give together: a load reads back what a store wrote (R146, R148, R153), and a
malformed stream is reported at an offset inside it (R149). -/

namespace Sys2Proof.Proofs

open Sys2Proof Sys2Proof.Machine Sys2Proof.Claims

/-! ### A load reads back what a store wrote -/

/-- A store that raised no fault has written its bytes. -/
theorem storeResult_of_outcome {s t : State} {l : List Byte} {i : Instr} (h : StoreOutcome s l (exec i s))
    (ht : exec i s = .next t) (herr : t.err = false) : StoreResult s l t := by
  have no_fault (code : BitVec 3) (pos : Word) : exec i s ≠ .next (faulted s code pos) := by
    rw [ht]
    rintro ⟨⟩
    cases herr
  obtain ⟨unsound, noRoom, stored⟩ := h
  by_cases hp : PointersOk s
  · by_cases hroom : l.length ≤ s.cfg.obytes - s.optr.toNat
    · obtain ⟨t', ht', hres⟩ := stored hp hroom
      rw [ht] at ht'
      cases ht'
      exact hres
    · exact absurd (noRoom hp (by omega)) (no_fault 4 0)
  · exact absurd (unsound hp) (no_fault 2 0)

/-- When the bytes a store wrote stand at IPTR of `u`, its string is the next of the stream of `u`. -/
theorem streamBytes_of_stored {s t u : State} {l : List Byte} (h : StoreResult s l t)
    (hcopy : ∀ j < t.cnt.toNat, u.ibuf.read (u.iptr.toNat + j) = t.obuf.read (s.optr.toNat + j)) :
    u.streamBytes u.iptr.toNat l.length = l := by
  obtain ⟨-, -, -, ⟨written, -, -, hcnt, -⟩, -⟩ := h
  refine List.ext_getElem (by simp) fun j _ hj => ?_
  rw [getElem_streamBytes, hcopy j (by omega), written j hj]

/-- The parser reads a unit back that fits legal parameters (R146, R148). -/
theorem parseUnit_unitBytes {c : Config} {s : State} {pos v : Nat} (hc : c.Legal) (hwidth : s.cfg.width = c.width)
    (hv : v < 2 ^ c.width) (hbytes : s.streamBytes pos (unitBytes v).length = unitBytes v)
    (hfit : pos + (unitBytes v).length ≤ s.ilen.toNat) :
    s.parseUnit pos = .ok (v, pos + (unitBytes v).length) := by
  have hmag : (mag v).length < 2 ^ 31 := by
    have hle := magLength_le_of_legal hc hv
    obtain ⟨⟨-, -, hmax⟩, -⟩ := hc
    rw [length_mag]
    omega
  have hwordLength : (be32 (mag v).length).length = 4 := length_beBytes ..
  obtain ⟨hsize, hvalue⟩ := streamBytes_eq_append_iff.1 hbytes
  rw [hwordLength] at hsize hvalue
  have size_eq : beValue (s.streamBytes pos 4) = (mag v).length := by
    rw [hsize, be32, beValue_beBytes, Nat.mod_eq_of_lt (by omega)]
  have value_eq : beValue (s.streamBytes (pos + 4) (mag v).length) = v := by rw [hvalue, beValue_mag]
  rw [unitBytes, List.length_append, hwordLength] at hfit ⊢
  rw [s.parseUnit_eq pos (by omega) (by omega) (by omega) (by rwa [size_eq, value_eq, hwidth]), size_eq, value_eq,
    Nat.add_assoc]

/-- A point register's coordinates fit the width `W`. -/
theorem inRange_point {s : State} (hs : s.RegsFit) (p : PReg) : InRange (2 ^ s.cfg.width) (s.point p) := by
  cases hinf : s.pinf.getLsbD p.toNat with
  | true => rw [point_of_infinite hinf]; trivial
  | false => rw [point_of_finite hinf]; exact ⟨hs _, hs _⟩

/-- RDPT reads back a serialised point whose coordinates fit legal parameters (R152, R153). -/
theorem exec_rdpt_pointBytes {c : Config} {s : State} {pd : PReg} {P : Point} (hd : pd.toNat < 8) (hp : PointersOk s)
    (hc : c.Legal) (hwidth : s.cfg.width = c.width) (hP : InRange (2 ^ c.width) P)
    (hbytes : s.streamBytes s.iptr.toNat (pointBytes P).length = pointBytes P)
    (hfit : s.iptr.toNat + (pointBytes P).length ≤ s.ilen.toNat) :
    ∃ t, exec (.rdpt pd) s = .next t ∧ PointLoadResult s pd P (pointBytes P).length t := by
  cases P with
  | inf =>
    obtain ⟨hflag, -⟩ := streamBytes_eq_cons_iff.1 hbytes
    exact exec_rdpt_infinite hd hp hfit hflag
  | finite x y =>
    obtain ⟨hflag, hunits⟩ := streamBytes_eq_cons_iff.1 hbytes
    obtain ⟨hx, hy⟩ := streamBytes_eq_append_iff.1 hunits
    have hlen : (pointBytes (.finite x y)).length = 1 + (unitBytes x).length + (unitBytes y).length := by
      rw [pointBytes, List.length_cons, List.length_append]
      omega
    rw [hlen] at hfit ⊢
    have hparse := exec_rdpt_parsed hd hp (by omega) hflag
      (parseUnit_unitBytes hc hwidth hP.1 hx (by omega)) (parseUnit_unitBytes hc hwidth hP.2 hy (by omega))
    rwa [Nat.add_assoc, Nat.add_assoc, Nat.add_sub_cancel_left, ← Nat.add_assoc] at hparse

/-- Settles O35: the unit stands in the stream, and the parser reads it back. -/
theorem unitRoundTrip : Obligations.UnitRoundTrip := by
  intro s t u bs bd hs _ ht herr hwidth hp hfit hcopy
  obtain ⟨-, -, howf, -⟩ := hs.buffers
  have hstore := storeResult_of_outcome (storeOutcome_of_store rfl rfl hs.legal howf) ht herr
  have hbytes := streamBytes_of_stored hstore hcopy
  obtain ⟨-, -, -, ⟨-, -, -, hcnt, -⟩, -⟩ := hstore
  have ⟨hiptr, _⟩ := hp
  have hparse := parseUnit_unitBytes hs.legal hwidth (hs.regs bs) hbytes (by omega)
  have hload := exec_rdunit_parsed bd hp hparse
  rwa [Nat.add_sub_cancel_left, ← hcnt] at hload

/-- Settles O36: the serialised point stands in the stream, and RDPT reads it back. -/
theorem pointRoundTrip : Obligations.PointRoundTrip := by
  intro s t u ps pd hps hpd hs _ ht herr hwidth hp hfit hcopy
  have hw : (Instr.wrpt ps).wellFormed = true := isPoint_of_lt hps
  obtain ⟨-, -, howf, -⟩ := hs.buffers
  have hstore := storeResult_of_outcome (storeOutcome_of_store hw rfl hs.legal howf) ht herr
  have hbytes := streamBytes_of_stored hstore hcopy
  obtain ⟨-, -, -, ⟨-, -, -, hcnt, -⟩, -⟩ := hstore
  have ⟨hiptr, _⟩ := hp
  rw [hcnt]
  exact exec_rdpt_pointBytes hpd hp hs.legal hwidth (inRange_point hs.regs ps) hbytes (by omega)

/-! ### The offset of a malformed stream -/

theorem montmulRule_error {bd ba bb bn : BReg} {s : State} {f : CoreFault} (h : montmulRule bd ba bb bn s = .error f) :
    f = .invalidParameter := by
  unfold montmulRule at h
  dsimp only at h
  split at h
  · cases h; rfl
  · split at h <;> cases h
    rfl

theorem modexpRule_error {bd ba be bn : BReg} {s : State} {f : CoreFault} (h : modexpRule bd ba be bn s = .error f) :
    f = .invalidParameter := by
  unfold modexpRule at h
  dsimp only at h
  split at h <;> cases h
  rfl

theorem modinvRule_error {bd ba bn : BReg} {s : State} {f : CoreFault} (h : modinvRule bd ba bn s = .error f) :
    f = .invalidParameter ∨ f = .arithmetic := by
  unfold modinvRule at h
  dsimp only at h
  split at h
  · cases h; exact .inl rfl
  · split at h <;> cases h
    exact .inr (inverse_error _ _ _ ‹_›)

theorem ldblkRule_error {bd bn : BReg} {s : State} {f : CoreFault} (h : ldblkRule bd bn s = .error f) :
    f = .invalidParameter := by
  unfold ldblkRule at h
  dsimp only at h
  split at h
  · cases h; rfl
  · split at h
    · cases h; rfl
    · split at h <;> cases h
      rfl

/-- Only the parser and the flag byte report a position, and both look inside the stream (R148, R149, R152). -/
theorem malformed_offset_inside {i : Instr} {s : State} {q : Nat} (h : ruleOf i s = .error (.malformedCiphertext q)) :
    s.iptr.toNat ≤ q ∧ q ≤ s.ilen.toNat := by
  cases i with
  | montmul => exact nomatch montmulRule_error h
  | modexp => exact nomatch modexpRule_error h
  | modinv => exact nomatch modinvRule_error h
  | gcd => cases h
  | ldblk => exact nomatch ldblkRule_error h
  | stint | wrunit | wrpt => exact nomatch store_error _ _ _ h
  | padd => exact nomatch pointRule_error _ _ _ _ _ _ (pointAdd_error _ _ _ _) h
  | pdbl => exact nomatch pointRule_error _ _ _ _ _ _ (pointDouble_error _ _ _) h
  | pmul => exact nomatch pointRule_error _ _ _ _ _ _ (mulLoop_error _ _ _ · _ _ _ _) h
  | pneg => exact nomatch pointRule_error _ _ _ _ (.ok _) _ nofun h
  | rdunit bd =>
    obtain h | ⟨q', h, hq⟩ | h := rdunitRule_error bd s _ h <;> cases h
    exact hq
  | rdpt pd =>
    obtain h | ⟨q', h, hq⟩ | h := rdptRule_error pd s _ h <;> cases h
    exact hq

/-- Code 3 is that of a malformed stream alone (R201). -/
theorem eq_malformed_of_code {f : CoreFault} (h : f.code = 3) : ∃ q, f = .malformedCiphertext q := by
  cases f with
  | malformedCiphertext q => exact ⟨q, rfl⟩
  | arithmetic | invalidParameter | io | unsupportedCommand | capacity => cases h

/-- A term that is no command is not run at all (R74, R203). -/
theorem exec_of_not_wellFormed {i : Instr} {s : State} (hw : ¬i.wellFormed = true) :
    exec i s = .next (s.faultEntry .unsupportedCommand) :=
  (exec_eq i s).trans (if_neg hw)

/-- Settles O37: ERRPOS is the rule's offset, which is inside the stream and so fits 32 bits. -/
theorem errposInsideStream : Obligations.ErrposInsideStream := by
  intro s t i hs ht herr hcause
  by_cases hw : i.wellFormed = true
  · obtain ⟨-, u, hu, rfl⟩ | ⟨f, hf, rfl⟩ := exec_cases i s t ht
    · have hkept : u.err = s.err := (ruleOf_keeps i s u hu).err
      exact absurd (herr.symm.trans (hkept.trans hs)) (by decide)
    · obtain ⟨q, rfl⟩ := eq_malformed_of_code hcause
      have ⟨hlow, hhigh⟩ := malformed_offset_inside (hf hw)
      rw [State.faultEntry_errPos, toNat_errPos_malformed hhigh]
      exact ⟨hlow, hhigh⟩
  · rw [exec_of_not_wellFormed hw] at ht
    cases ht
    cases hcause

end Sys2Proof.Proofs
end

section
/-! PROOFS. The faults of 60_exceptions.md: what fault entry writes (R206), which codes a command raises (R203, R217),
what the faulted state lets happen (R207), and the interrupt line (R209). -/

namespace Sys2Proof.Proofs

open Sys2Proof Sys2Proof.Machine Sys2Proof.Claims

/-! ### Fault entry -/

/-- A command that finds ERR 0 and leaves ERR 1 ended in fault entry, by the fault of its rule where it is one of the
fourteen commands: no rule that completes writes ERR. -/
theorem exec_eq_faultEntry_of_err {i : Instr} {s t : State} (hs : s.err = false) (h : exec i s = .next t)
    (ht : t.err = true) : ∃ f, (i.wellFormed = true → ruleOf i s = .error f) ∧ t = s.faultEntry f := by
  obtain ⟨-, u, hu, rfl⟩ | hfault := exec_cases i s t h
  · have hkept : u.err = s.err := (ruleOf_keeps i s u hu).err
    exact absurd (ht.symm.trans (hkept.trans hs)) (by decide)
  · exact hfault

theorem code_bounds (f : CoreFault) : 1 ≤ f.code.toNat ∧ f.code.toNat ≤ 6 := by
  have ⟨hzero, hseven⟩ := f.code_range
  bv_omega

/-- Settles O38: the five assignments of `faulted` are those of fault entry. -/
theorem faultEntryExactly : Obligations.FaultEntryExactly := by
  intro s t i hs h ht
  obtain ⟨f, -, rfl⟩ := exec_eq_faultEntry_of_err hs h ht
  have ⟨hlow, hhigh⟩ := code_bounds f
  exact ⟨faultEntry_eq_faulted s f, hlow, hhigh, f.errPos_eq_zero⟩

/-! ### The codes of a command -/

/-- A point command whose computation cannot fault has only the checks of R121 to fail. -/
theorem pointRule_error_of_ok {s : State} {pd : PReg} {p : Nat} {sources : List Point} {P : Point} {f : CoreFault}
    (h : pointRule s pd p sources (.ok P) = .error f) : f = .invalidParameter := by
  obtain ⟨-, h'⟩ | ⟨-, -, ⟨_, hf, -⟩ | ⟨_, -, h'⟩⟩ := pointRule_cases s pd p sources (.ok P)
  · exact Except.error.inj (h.symm.trans h')
  · cases hf
  · cases h.symm.trans h'

/-- The table of R217 bounds the faults of every rule. -/
theorem code_mem_mayRaise {i : Instr} {s : State} {f : CoreFault} (h : ruleOf i s = .error f) :
    f.code ∈ mayRaise i := by
  cases i with
  | montmul =>
    obtain rfl := montmulRule_error h
    simp [CoreFault.code, mayRaise]
  | modexp =>
    obtain rfl := modexpRule_error h
    simp [CoreFault.code, mayRaise]
  | modinv =>
    obtain rfl | rfl := modinvRule_error h <;> simp [CoreFault.code, mayRaise]
  | gcd => cases h
  | padd =>
    obtain rfl | rfl := pointRule_error _ _ _ _ _ _ (pointAdd_error _ _ _ _) h <;> simp [CoreFault.code, mayRaise]
  | pdbl =>
    obtain rfl | rfl := pointRule_error _ _ _ _ _ _ (pointDouble_error _ _ _) h <;> simp [CoreFault.code, mayRaise]
  | pmul =>
    obtain rfl | rfl := pointRule_error _ _ _ _ _ _ (mulLoop_error _ _ _ · _ _ _ _) h <;>
      simp [CoreFault.code, mayRaise]
  | pneg =>
    obtain rfl := pointRule_error_of_ok h
    simp [CoreFault.code, mayRaise]
  | ldblk =>
    obtain rfl := ldblkRule_error h
    simp [CoreFault.code, mayRaise]
  | stint | wrunit | wrpt =>
    obtain rfl | rfl := store_error _ _ _ h <;> simp [CoreFault.code, mayRaise]
  | rdunit =>
    obtain rfl | ⟨_, rfl, -⟩ | rfl := rdunitRule_error _ _ _ h <;> simp [CoreFault.code, mayRaise]
  | rdpt =>
    obtain rfl | ⟨_, rfl, -⟩ | rfl := rdptRule_error _ _ _ h <;> simp [CoreFault.code, mayRaise]

/-- Settles O39: the fault entered is the rule's. -/
theorem faultsByCommand : Obligations.FaultsByCommand := by
  intro s t i hw hs h ht
  obtain ⟨f, hf, rfl⟩ := exec_eq_faultEntry_of_err hs h ht
  exact code_mem_mayRaise (hf hw)

/-! ### UnsupportedCommand -/

/-- A word that matches no row is rejected: what decodes is the word of its command's row (R72). -/
theorem decode_error_of_no_row {w : Word} (h : ∀ r ∈ opcodeMap, w &&& r.mask ≠ r.pattern) :
    ∃ e, decode w = .error e := by
  cases hd : decode w with
  | error e => exact ⟨e, rfl⟩
  | ok i =>
    obtain ⟨rfl, hw⟩ := encode_of_decode hd
    obtain ⟨r, hr, -, hmatch⟩ := encodesToItsRow i hw
    exact absurd hmatch (h r hr)

/-- No row of the table of R217 lists UnsupportedCommand. -/
theorem unsupported_not_mem_mayRaise (i : Instr) : 5 ∉ mayRaise i := by
  cases i <;> simp [mayRaise]

/-- Settles O8: a word that matches no row does not decode; the command of one that does raises only the codes of its
table row. -/
theorem unsupportedExactly : Obligations.UnsupportedExactly := by
  refine fun s hbusy hs => ⟨fun hnone => ?_, fun r hr hmatch t h ht hcause => ?_⟩
  · obtain ⟨e, he⟩ := decode_error_of_no_row hnone
    rw [after_sequencer, sequence_of_decode_error hbusy he]
    rfl
  · obtain ⟨i, hi, -⟩ := exists_decode_of_and_eq hr hmatch
    obtain ⟨-, hw⟩ := encode_of_decode hi
    rw [after_sequencer, sequence_of_decode_ok hbusy hi] at h
    have hmem := faultsByCommand s t i hw hs h ht
    rw [hcause] at hmem
    exact unsupported_not_mem_mayRaise i hmem

/-! ### The faulted state -/

theorem hostRead_err (s : State) (offset bytes : Nat) : (s.hostRead offset bytes).err = s.err := by
  rw [hostRead_eq_withHostPart]
  rfl

/-- In the faulted state a write leaves ERR 1, unless it is the soft reset (R207). -/
theorem hostWrite_err_of_no_reset {s : State} (hs : s.err = true) {offset bytes : Nat} {d : Word}
    (hno : ¬IsReset (.write offset bytes d)) : (s.hostWrite offset bytes d).err = true := by
  by_cases hctrl : offset = 0x10 ∧ bytes = 4
  · obtain ⟨rfl, rfl⟩ := hctrl
    have hd : d.getLsbD 0 = false := Bool.eq_false_iff.2 fun hd => hno (.inr ⟨d, hd, rfl⟩)
    rw [hostWrite_ctrl, writeCtrl_enables s hd]
    exact hs
  · rw [s.hostWrite_not_idle offset bytes d ((not_idle_iff s).2 (.inr hs)) hctrl]
    exact hs

/-- Reset is the only exit from the faulted state (R207). -/
theorem err_after_of_no_reset {s t : State} {e : Event} (hs : s.err = true) (hbusy : s.busy = false)
    (hno : ¬IsReset e) (h : after s e = .next t) : t.err = true := by
  cases e with
  | read offset bytes =>
    cases h
    exact (hostRead_err s offset bytes).trans hs
  | write offset bytes d =>
    cases h
    exact hostWrite_err_of_no_reset hs hno
  | hardReset => exact absurd (.inl rfl) hno
  | sequencer =>
    rw [after_sequencer, sequence_of_not_busy hbusy] at h
    cases h
    exact hs

/-- Settles O40, clause by clause: the rules of the window for a CORE that is neither busy nor idle, the sequencer's
rest, the reset values and the only exit. -/
theorem faultedState : Obligations.FaultedState := by
  intro s hs hbusy
  refine ⟨fun offset l hl => ?_, fun offset bytes d hctrl => ?_, fun d hd => ?_, ?_, ?_, fun e t h ht => ?_⟩
  · exact after_read_performed hl (mayRead_of_not_busy hbusy l)
  · exact after_write_refused (s.hostWrite_not_idle offset bytes d ((not_idle_iff s).2 (.inr hs)) hctrl)
  · rw [after_write_ctrl, writeCtrl_enables s hd]
  · rw [after_sequencer, sequence_of_not_busy hbusy]
  · exact resetValues.1 s
  · by_contra hno
    have hstays := err_after_of_no_reset hs hbusy hno h
    exact absurd (ht.symm.trans hstays) (by decide)

/-! ### The interrupt line -/

theorem irq_iff (s : State) :
    s.irq = true ↔ (s.done = true ∧ s.ieDone = true) ∨ (s.err = true ∧ s.ieErr = true) := by
  simp [State.irq]

/-- Acceptance clears DONE, and a word is accepted only while ERR is 0 (R79). -/
theorem irq_acceptCommand {s : State} (hs : s.err = false) (w : Word) : (s.acceptCommand w).irq = false := by
  simp [State.irq, hs]

/-- After a write of CTRL the line follows the enables written, and is low at a soft reset (R31). -/
theorem irq_writeCtrl_iff (s : State) (d : Word) :
    (s.writeCtrl d).irq = true ↔ d.getLsbD 0 = false ∧
      ((s.done = true ∧ d.getLsbD 1 = true) ∨ (s.err = true ∧ d.getLsbD 2 = true)) := by
  obtain ⟨hd, h⟩ | ⟨hd, h⟩ := s.writeCtrl_cases d
  · rw [h, hd]
    exact iff_of_false (by simp [State.irq]) (by simp)
  · rw [h, hd, irq_iff]
    simp

/-- The line falls when the enable of each status bit that is 1 is written 0. -/
theorem irq_writeCtrl_eq_false {s : State} {d : Word} (hdone : s.done = true → d.getLsbD 1 = false)
    (herr : s.err = true → d.getLsbD 2 = false) : (s.writeCtrl d).irq = false := by
  refine Bool.eq_false_iff.2 fun hhigh => ?_
  obtain ⟨-, ⟨hd, h1⟩ | ⟨he, h2⟩⟩ := (irq_writeCtrl_iff s d).1 hhigh
  · exact absurd (h1.symm.trans (hdone hd)) (by decide)
  · exact absurd (h2.symm.trans (herr he)) (by decide)

/-- A completion leaves the enables, so the line is high exactly when its outcome is enabled. -/
theorem irq_exec (i : Instr) (s : State) :
    ∃ t, exec i s = .next t ∧ (t.done = true ∨ t.err = true) ∧
      (t.irq = true ↔ (t.done = true ∧ s.ieDone = true) ∨ (t.err = true ∧ s.ieErr = true)) := by
  obtain ⟨t, ht, -, houtcome, -, -, -, hieDone, hieErr, -⟩ := completionFrame i s
  refine ⟨t, ht, ?_, ?_⟩
  · obtain ⟨hdone, -⟩ | ⟨-, herr⟩ := houtcome
    · exact .inl hdone
    · exact .inr herr
  · rw [irq_iff, hieDone, hieErr]

/-- Settles O54: the formula of `irq`, and what each event leaves of the bits it reads. -/
theorem interruptLine : Obligations.InterruptLine := by
  refine fun s => ⟨irq_iff s, fun e he => ?_, fun hbusy hs w => ?_, fun d => ?_, fun i => ?_⟩
  · exact ⟨s.performReset, after_reset s he, rfl⟩
  · exact ⟨s.acceptCommand w, after_write_performed (l := .ctl .cmd) rfl (if_pos ((idle_iff s).2 ⟨hbusy, hs⟩)),
      irq_acceptCommand hs w⟩
  · refine ⟨s.writeCtrl d, after_write_ctrl s d, irq_writeCtrl_iff s d, fun hs h1 => ?_, fun hdone h2 => ?_,
      fun h1 h2 => ?_⟩
    · exact irq_writeCtrl_eq_false (fun _ => h1) (by simp [hs])
    · exact irq_writeCtrl_eq_false (by simp [hdone]) (fun _ => h2)
    · exact irq_writeCtrl_eq_false (fun _ => h1) (fun _ => h2)
  · obtain ⟨t, ht, houtcome, hirq⟩ := irq_exec i s
    refine ⟨t, ht, houtcome, hirq, fun hieDone hieErr => hirq.2 ?_⟩
    exact houtcome.imp (⟨·, hieDone⟩) (⟨·, hieErr⟩)

end Sys2Proof.Proofs
end

section
/-! PROOFS. Reset (70_reset_and_hazards.md R230, R231): the hard and the soft reset leave one state, the reset state of
the instance beside the model's own two lists, whatever the state before. -/

namespace Sys2Proof.Proofs

open Sys2Proof Sys2Proof.Machine Sys2Proof.Claims

/-- R231: the machine's state before a reset, a command in execution included, leaves no trace but the parameters; the
two lists are the platform's (log 10). -/
theorem performReset_eq_resetWith (s : State) :
    s.performReset = { State.resetWith s.cfg with pending := s.pending, returned := s.returned } := rfl

/-- Settles O52: a delivered reset of either kind is `performReset` in every state. -/
theorem resetIsOneEvent : Obligations.ResetIsOneEvent := by
  intro s d hd
  have hard : after s .hardReset = .next s.performReset := after_reset s (.inl rfl)
  have soft : after s (.write 0x10 4 d) = .next s.performReset := after_reset s (.inr ⟨d, hd, rfl⟩)
  exact ⟨by rw [hard, performReset_eq_resetWith], soft.trans hard.symm⟩

end Sys2Proof.Proofs
end
